-- ==== Sys2Proof/Word.lean ====
section
/-! DEFINITION. Sys2Proof/Word.lean: bytes, words, text octets and the small operand types every layer uses
(spec/00_scope.md R5, R7, R9). Bit fields, sign extension and byte order are in Decode.lean and Machine/Operands.lean. -/

namespace Sys2Proof

/-- A byte, bits 7 to 0 (R7). -/
abbrev Byte := BitVec 8

/-- A 16-bit word, bits 15 to 0 (R5, R7). -/
abbrev Word := BitVec 16

/-- A 3-bit index: a register number, a RegMem value, or the ignored Register field of family 3 (R61, R63). -/
abbrev Idx := BitVec 3

/-- Output text: 7-bit ASCII, one byte per character (30_encoding.md R81). -/
abbrev Text := List Byte

/-- The Word bit `w`: 0 is narrow (8-bit), 1 is wide (16-bit) (glossary of 00_scope.md). -/
inductive Width where
  | narrow
  | wide
deriving DecidableEq, Repr

/-- The Word bit as the number 0 or 1. -/
def Width.toNat : Width → Nat
  | .narrow => 0
  | .wide => 1

/-- An immediate as it stands in the instruction's bytes: one byte when `w = 0`, two when `w = 1` (R71). -/
inductive Imm where
  | imm8 (v : Byte)
  | imm16 (v : Word)
deriving DecidableEq, Repr

/-- The Word bit an immediate of family 3 goes with: its size is `1 + w` (30_encoding.md R64). -/
def Imm.width : Imm → Width
  | .imm8 _ => .narrow
  | .imm16 _ => .wide

/-- The register/memory operand of families 2 and 3 as its bytes give it: the four Mode values, Mode 0 split
by the direct-address case (30_encoding.md R69, 41_name_tables.md R109). -/
inductive RmForm where
  /-- Mode 3: `rm` names a register. -/
  | register (rm : Idx)
  /-- Mode 0, `rm` not 6: a base/index expression. -/
  | expr (rm : Idx)
  /-- Mode 0, `rm` = 6: a 16-bit absolute address. -/
  | direct (addr : Word)
  /-- Mode 1: expression and signed 8-bit displacement. -/
  | disp8 (rm : Idx) (d : Byte)
  /-- Mode 2: expression and signed 16-bit displacement. -/
  | disp16 (rm : Idx) (d : Word)
deriving DecidableEq, Repr

end Sys2Proof
end

