-- ==== Sys2Proof/Config.lean ====
section
/-! DEFINITION. Sys2Proof/Config.lean: what is fixed for the hardware (spec/00_scope.md R5). The spec leaves no value
free (93_implementation_defined.md part A), so there is no opaque constant here. `N` and `buf` are inputs: they stand
in Machine/State.lean (log entry 1). `OFFW` is unbounded in the model: offsets are natural numbers (log entry 7). -/

namespace Sys2Proof

/-- The offset at which every run starts decoding (20_memory.md R42, 10_state.md R31). -/
def Config.entryPoint : Nat := 0

/-- The longest instruction, in bytes (30_encoding.md R70). -/
def Config.maxLength : Nat := 6

/-- The number base of every number printed: decimal (R5, D6, D7). -/
def Config.numberBase : Nat := 10

end Sys2Proof
end

