-- ==== Sys2Proof/Syntax.lean ====
section
/-! DEFINITION. Sys2Proof/Syntax.lean: the instructions, one constructor per row of spec/opcode_table.json, in the
table's order (30_encoding.md R77). Operands are the fields of the encoding; the ignored Register field of family 3
is kept (`x`), so that no bit of an encoding is lost. -/

namespace Sys2Proof

/-- The 19 instruction forms of 30_encoding.md R77. `w` is the Word bit, `reg` the Register (or Reg) field, `rm` the
RegMem field, `x` the ignored Register field of family 3. -/
inductive Instr where
  /-- R121, `10110 reg`. -/
  | movR8Imm8 (reg : Idx) (imm : Byte)
  /-- R122, `10111 reg`. -/
  | movR16Imm16 (reg : Idx) (imm : Word)
  /-- R131, Direction 0: `reg` is the source. -/
  | movRRRegSrc (w : Width) (reg rm : Idx)
  /-- R132, Direction 0. -/
  | movEaR (w : Width) (reg rm : Idx)
  /-- R133, Direction 0. -/
  | movAddrR (w : Width) (reg : Idx) (addr : Word)
  /-- R134, Direction 0. -/
  | movEaDisp8R (w : Width) (reg rm : Idx) (disp : Byte)
  /-- R135, Direction 0. -/
  | movEaDisp16R (w : Width) (reg rm : Idx) (disp : Word)
  /-- R131, Direction 1: `reg` is the destination. -/
  | movRRRegDst (w : Width) (reg rm : Idx)
  /-- R132, Direction 1. -/
  | movREa (w : Width) (reg rm : Idx)
  /-- R133, Direction 1. -/
  | movRAddr (w : Width) (reg : Idx) (addr : Word)
  /-- R134, Direction 1. -/
  | movREaDisp8 (w : Width) (reg rm : Idx) (disp : Byte)
  /-- R135, Direction 1. -/
  | movREaDisp16 (w : Width) (reg rm : Idx) (disp : Word)
  /-- R151. The Word bit is the immediate's width. -/
  | movRImm (x rm : Idx) (imm : Imm)
  /-- R152. -/
  | movEaImm (x rm : Idx) (imm : Imm)
  /-- R153. -/
  | movAddrImm (x : Idx) (addr : Word) (imm : Imm)
  /-- R154. -/
  | movEaDisp8Imm (x rm : Idx) (disp : Byte) (imm : Imm)
  /-- R155. -/
  | movEaDisp16Imm (x rm : Idx) (disp : Word) (imm : Imm)
  /-- R171, memory to accumulator. -/
  | movAccAddr (w : Width) (addr : Word)
  /-- R172, accumulator to memory. -/
  | movAddrAcc (w : Width) (addr : Word)
deriving DecidableEq, Repr

end Sys2Proof
end

