-- ==== Sys2Proof/WellFormed.lean ====
section
/-! DEFINITION. Sys2Proof/WellFormed.lean: which instruction terms some byte string decodes to. One check: the three
forms with no displacement never carry RegMem 6, which is the direct address (spec/41_name_tables.md R104). Every
other field value is legal (30_encoding.md R75). -/

namespace Sys2Proof

/-- RegMem 6 with Mode 0 is the direct-address special case, not an expression (R104). -/
def directAddressRm : Idx := 6

/-- The instruction is one the encoding can express. -/
def WellFormed : Instr → Bool
  | .movEaR _ _ rm => rm != directAddressRm
  | .movREa _ _ rm => rm != directAddressRm
  | .movEaImm _ rm _ => rm != directAddressRm
  | .movR8Imm8 _ _ => true
  | .movR16Imm16 _ _ => true
  | .movRRRegSrc _ _ _ => true
  | .movAddrR _ _ _ => true
  | .movEaDisp8R _ _ _ _ => true
  | .movEaDisp16R _ _ _ _ => true
  | .movRRRegDst _ _ _ => true
  | .movRAddr _ _ _ => true
  | .movREaDisp8 _ _ _ _ => true
  | .movREaDisp16 _ _ _ _ => true
  | .movRImm _ _ _ => true
  | .movAddrImm _ _ _ => true
  | .movEaDisp8Imm _ _ _ _ => true
  | .movEaDisp16Imm _ _ _ _ => true
  | .movAccAddr _ _ => true
  | .movAddrAcc _ _ => true

end Sys2Proof
end

