-- ==== Sys2Proof/Decode.lean ====
section
/-! DEFINITION. Sys2Proof/Decode.lean: from bytes to an instruction or a named rejection, and back
(spec/30_encoding.md, spec/40_opcode_classifier.md, the operand reads of spec/42 to 45 and of 41_name_tables.md R109).
The decoder sees the bytes through the two read primitives of 20_memory.md R43 and R44, at offsets relative to the
instruction's first byte, and makes the reads in the order of 60_exceptions.md R194. -/

namespace Sys2Proof

/-! ### Fields of a byte and byte order (R61 to R63, R47) -/

/-- Bits 2:0: Reg in family 1, RegMem in the mod byte. -/
def lowField (b : Byte) : Idx := b.extractLsb' 0 3

/-- Bits 5:3 of the mod byte: Register. -/
def regField (b : Byte) : Idx := b.extractLsb' 3 3

/-- Bits 7:6 of the mod byte: Mode, as a number (R63, R193). -/
def modeField (b : Byte) : Nat := (b.extractLsb' 6 2).toNat

/-- A bit read as a Word bit: 1 is wide. -/
def widthOfBit (bit : Bool) : Width := if bit then .wide else .narrow

/-- Bit 3 of a family 1 opcode byte: Word (R61). -/
def immToRegWidth (b : Byte) : Width := widthOfBit (b.getLsbD 3)

/-- Bit 0 of the opcode byte of families 2 to 5: Word (R61). -/
def lowWidth (b : Byte) : Width := widthOfBit (b.getLsbD 0)

/-- Bit 1 of a family 2 opcode byte: Direction (R61). -/
def directionField (b : Byte) : Bool := b.getLsbD 1

/-- A word from its bytes: the byte at the lower offset is the less significant (20_memory.md R47). -/
def leWord (lo hi : Byte) : Word := hi ++ lo

/-- The less significant byte of a word. -/
def loByte (w : Word) : Byte := w.extractLsb' 0 8

/-- The more significant byte of a word. -/
def hiByte (w : Word) : Byte := w.extractLsb' 8 8

/-! ### opcode_classifier (40_opcode_classifier.md) -/

/-- The five encoding families (R90). -/
inductive Family where
  | immToReg
  | rmReg
  | immToRm
  | memToAcc
  | accToMem
deriving DecidableEq, Repr

/-- One row of the classifier table. -/
structure ClassRow where
  family : Family
  mask : Byte
  pattern : Byte
deriving DecidableEq, Repr

/-- R91, in the required evaluation order. -/
def classifierTable : List ClassRow :=
  [⟨.immToReg, 0xF0, 0xB0⟩, ⟨.rmReg, 0xFC, 0x88⟩, ⟨.immToRm, 0xFE, 0xC6⟩, ⟨.memToAcc, 0xFE, 0xA0⟩,
    ⟨.accToMem, 0xFE, 0xA2⟩]

/-- The first row that matches is the chosen family; none is "no match" (R90, R92). -/
def classifyWith (rows : List ClassRow) (b : Byte) : Option Family :=
  (rows.find? fun r => b &&& r.mask == r.pattern).map ClassRow.family

/-- `Classify(b)` (R92). -/
def classify (b : Byte) : Option Family := classifyWith classifierTable b

/-! ### Reads and rejections -/

/-- The two read primitives, at offsets relative to the instruction's first byte. `none` is a read past the end
(R43, R44). -/
structure Reader where
  byte : Nat → Option Byte
  word : Nat → Option Word

/-- Why bytes are not an instruction: the three error kinds (60_exceptions.md R190). `off` is the relative offset the
failing read was made at (R191). -/
inductive Reject where
  | outOfRange (off : Nat)
  | unsupportedOpcode (opcode : Byte)
  | invalidMode (modByte : Byte)
deriving DecidableEq, Repr

/-- The reader over a list of bytes whose first is the instruction's first. -/
def listReader (bs : List Byte) : Reader where
  byte k := bs[k]?
  word k := if k + 1 < bs.length then some (leWord (bs.getD k 0) (bs.getD (k + 1) 0)) else none

/-- `ReadByte`, a failure carrying the offset (R43, R191). -/
def Reader.readByte (rd : Reader) (k : Nat) : Except Reject Byte :=
  match rd.byte k with
  | some b => .ok b
  | none => .error (.outOfRange k)

/-- `ReadWord`: one check for the whole word; a failure carries the low byte's offset (R44, R191). -/
def Reader.readWord (rd : Reader) (k : Nat) : Except Reject Word :=
  match rd.word k with
  | some w => .ok w
  | none => .error (.outOfRange k)

/-- The immediate at offset `k`: a byte when `w = 0`, a word when `w = 1` (R71). -/
def Reader.readImm (rd : Reader) (w : Width) (k : Nat) : Except Reject Imm :=
  match w with
  | .narrow => (rd.readByte k).map .imm8
  | .wide => (rd.readWord k).map .imm16

/-! ### The per-encoding decoders -/

/-- Displacement/address size `DS` in bytes (30_encoding.md R69). -/
def RmForm.dispSize : RmForm → Nat
  | .register _ => 0
  | .expr _ => 0
  | .direct _ => 2
  | .disp8 _ _ => 1
  | .disp16 _ _ => 2

/-- The bytes part of `DecodeRM` (41_name_tables.md R109). `mode` is a number, so the defensive InvalidMode arm is
kept (R193, D24); no byte reaches it. -/
def decodeRm (rd : Reader) (modByte : Byte) (mode : Nat) (rm : Idx) : Except Reject RmForm :=
  match mode with
  | 0 =>
    if rm = directAddressRm then (rd.readWord 2).map .direct
    else .ok (.expr rm)
  | 1 => (rd.readByte 2).map (.disp8 rm)
  | 2 => (rd.readWord 2).map (.disp16 rm)
  | 3 => .ok (.register rm)
  | _ => .error (.invalidMode modByte)

/-- R120: Reg is bits 2:0 and Word bit 3 of the opcode byte. -/
def decodeImmToReg (rd : Reader) (b0 : Byte) : Except Reject Instr :=
  match immToRegWidth b0 with
  | .narrow => (rd.readByte 1).map (.movR8Imm8 (lowField b0))
  | .wide => (rd.readWord 1).map (.movR16Imm16 (lowField b0))

/-- Direction 0: the register/memory operand is the destination (R130). -/
def instrRmFromReg (w : Width) (reg : Idx) : RmForm → Instr
  | .register rm => .movRRRegSrc w reg rm
  | .expr rm => .movEaR w reg rm
  | .direct a => .movAddrR w reg a
  | .disp8 rm d => .movEaDisp8R w reg rm d
  | .disp16 rm d => .movEaDisp16R w reg rm d

/-- Direction 1: the register operand is the destination (R130). -/
def instrRegFromRm (w : Width) (reg : Idx) : RmForm → Instr
  | .register rm => .movRRRegDst w reg rm
  | .expr rm => .movREa w reg rm
  | .direct a => .movRAddr w reg a
  | .disp8 rm d => .movREaDisp8 w reg rm d
  | .disp16 rm d => .movREaDisp16 w reg rm d

/-- R130: Word is bit 0, Direction bit 1 of the opcode byte; the mod byte is read before the displacement. -/
def decodeRmReg (rd : Reader) (b0 : Byte) : Except Reject Instr := do
  let b1 ← rd.readByte 1
  let m ← decodeRm rd b1 (modeField b1) (lowField b1)
  let w := lowWidth b0
  if directionField b0 then return instrRegFromRm w (regField b1) m
  else return instrRmFromReg w (regField b1) m

/-- Family 3 by addressing sub-case (R150). -/
def instrImmToRm (x : Idx) (imm : Imm) : RmForm → Instr
  | .register rm => .movRImm x rm imm
  | .expr rm => .movEaImm x rm imm
  | .direct a => .movAddrImm x a imm
  | .disp8 rm d => .movEaDisp8Imm x rm d imm
  | .disp16 rm d => .movEaDisp16Imm x rm d imm

/-- R150: mod byte, displacement or address, then the immediate at `2 + DS`. -/
def decodeImmToRm (rd : Reader) (b0 : Byte) : Except Reject Instr := do
  let b1 ← rd.readByte 1
  let m ← decodeRm rd b1 (modeField b1) (lowField b1)
  let imm ← rd.readImm (lowWidth b0) (2 + m.dispSize)
  return instrImmToRm (regField b1) imm m

/-- R170, memory to accumulator. -/
def decodeMemToAcc (rd : Reader) (b0 : Byte) : Except Reject Instr :=
  (rd.readWord 1).map (.movAccAddr (lowWidth b0))

/-- R170, accumulator to memory. -/
def decodeAccToMem (rd : Reader) (b0 : Byte) : Except Reject Instr :=
  (rd.readWord 1).map (.movAddrAcc (lowWidth b0))

/-- The instruction whose bytes the reader gives. Classification comes before any other read (R94). -/
def decode (rd : Reader) : Except Reject Instr := do
  let b0 ← rd.readByte 0
  match classify b0 with
  | none => .error (.unsupportedOpcode b0)
  | some .immToReg => decodeImmToReg rd b0
  | some .rmReg => decodeRmReg rd b0
  | some .immToRm => decodeImmToRm rd b0
  | some .memToAcc => decodeMemToAcc rd b0
  | some .accToMem => decodeAccToMem rd b0

/-- Decoding a list of bytes from its start. -/
def decodeBytes (bs : List Byte) : Except Reject Instr := decode (listReader bs)

/-! ### The encoder (30_encoding.md R61, R63, R64) -/

/-- The Word bit. -/
def Width.bit : Width → BitVec 1
  | .narrow => 0
  | .wide => 1

/-- The mod byte: Mode, Register, RegMem from the most significant end (R63). -/
def modByteOf (mode : BitVec 2) (reg rm : Idx) : Byte := mode ++ reg ++ rm

/-- A word's two bytes, the less significant first (R47). -/
def wordBytes (w : Word) : List Byte := [loByte w, hiByte w]

/-- An immediate's bytes (R64). -/
def Imm.bytes : Imm → List Byte
  | .imm8 v => [v]
  | .imm16 v => wordBytes v

/-- The mod byte and what follows it for a register/memory operand (R64, R69). -/
def RmForm.bytes (reg : Idx) : RmForm → List Byte
  | .register rm => [modByteOf 3 reg rm]
  | .expr rm => [modByteOf 0 reg rm]
  | .direct a => modByteOf 0 reg directAddressRm :: wordBytes a
  | .disp8 rm d => [modByteOf 1 reg rm, d]
  | .disp16 rm d => modByteOf 2 reg rm :: wordBytes d

/-- Opcode byte `1011 w reg` of format IR. -/
def opImmToReg (w : Width) (reg : Idx) : Byte := 0b1011#4 ++ w.bit ++ reg

/-- Opcode byte `100010 d w` of format RM. -/
def opRmReg (d : BitVec 1) (w : Width) : Byte := 0b100010#6 ++ d ++ w.bit

/-- Opcode byte `1100011 w` of format IM. -/
def opImmToRm (w : Width) : Byte := 0b1100011#7 ++ w.bit

/-- Opcode byte `1010000 w` of format MA. -/
def opMemToAcc (w : Width) : Byte := 0b1010000#7 ++ w.bit

/-- Opcode byte `1010001 w` of format AM. -/
def opAccToMem (w : Width) : Byte := 0b1010001#7 ++ w.bit

/-- Format RM. -/
def encodeRmReg (d : BitVec 1) (w : Width) (reg : Idx) (m : RmForm) : List Byte := opRmReg d w :: m.bytes reg

/-- Format IM. -/
def encodeImmToRm (x : Idx) (imm : Imm) (m : RmForm) : List Byte := opImmToRm imm.width :: (m.bytes x ++ imm.bytes)

/-- The bytes of an instruction, in ascending offset. -/
def encode : Instr → List Byte
  | .movR8Imm8 reg imm => [opImmToReg .narrow reg, imm]
  | .movR16Imm16 reg imm => opImmToReg .wide reg :: wordBytes imm
  | .movRRRegSrc w reg rm => encodeRmReg 0 w reg (.register rm)
  | .movEaR w reg rm => encodeRmReg 0 w reg (.expr rm)
  | .movAddrR w reg a => encodeRmReg 0 w reg (.direct a)
  | .movEaDisp8R w reg rm d => encodeRmReg 0 w reg (.disp8 rm d)
  | .movEaDisp16R w reg rm d => encodeRmReg 0 w reg (.disp16 rm d)
  | .movRRRegDst w reg rm => encodeRmReg 1 w reg (.register rm)
  | .movREa w reg rm => encodeRmReg 1 w reg (.expr rm)
  | .movRAddr w reg a => encodeRmReg 1 w reg (.direct a)
  | .movREaDisp8 w reg rm d => encodeRmReg 1 w reg (.disp8 rm d)
  | .movREaDisp16 w reg rm d => encodeRmReg 1 w reg (.disp16 rm d)
  | .movRImm x rm imm => encodeImmToRm x imm (.register rm)
  | .movEaImm x rm imm => encodeImmToRm x imm (.expr rm)
  | .movAddrImm x a imm => encodeImmToRm x imm (.direct a)
  | .movEaDisp8Imm x rm d imm => encodeImmToRm x imm (.disp8 rm d)
  | .movEaDisp16Imm x rm d imm => encodeImmToRm x imm (.disp16 rm d)
  | .movAccAddr w a => opMemToAcc w :: wordBytes a
  | .movAddrAcc w a => opAccToMem w :: wordBytes a

/-! ### Lengths (30_encoding.md R70) -/

/-- Immediate size `IS = 1 + w` (R64). -/
def immSize (w : Width) : Nat := 1 + w.toNat

/-- The length of an instruction in bytes: the rows of R70. -/
def Instr.length : Instr → Nat
  | .movR8Imm8 _ _ => 2
  | .movR16Imm16 _ _ => 3
  | .movRRRegSrc _ _ _ => 2
  | .movEaR _ _ _ => 2
  | .movAddrR _ _ _ => 4
  | .movEaDisp8R _ _ _ _ => 3
  | .movEaDisp16R _ _ _ _ => 4
  | .movRRRegDst _ _ _ => 2
  | .movREa _ _ _ => 2
  | .movRAddr _ _ _ => 4
  | .movREaDisp8 _ _ _ _ => 3
  | .movREaDisp16 _ _ _ _ => 4
  | .movRImm _ _ imm => 2 + immSize imm.width
  | .movEaImm _ _ imm => 2 + immSize imm.width
  | .movAddrImm _ _ imm => 4 + immSize imm.width
  | .movEaDisp8Imm _ _ _ imm => 3 + immSize imm.width
  | .movEaDisp16Imm _ _ _ imm => 4 + immSize imm.width
  | .movAccAddr _ _ => 3
  | .movAddrAcc _ _ => 3

/-! ### The machine-readable opcode table (30_encoding.md R77, opcode_table.json) -/

/-- One row: masks on the opcode byte and on the mod byte. A zero `modMask` with a zero `modPattern` tests nothing.
`excludeDirect` is the row's exclusion of mod bytes that match 0x06 under mask 0xC7. -/
structure TableRow where
  mnemonic : String
  mask : Byte
  pattern : Byte
  modMask : Byte
  modPattern : Byte
  excludeDirect : Bool
deriving DecidableEq, Repr

/-- The rows of opcode_table.json, in its order. -/
def opcodeTable : List TableRow :=
  [⟨"MOV_r8__imm8", 0xF8, 0xB0, 0, 0, false⟩,
    ⟨"MOV_r16__imm16", 0xF8, 0xB8, 0, 0, false⟩,
    ⟨"MOV_r__r__register_field_is_source", 0xFE, 0x88, 0xC0, 0xC0, false⟩,
    ⟨"MOV__ea___r", 0xFE, 0x88, 0xC0, 0x00, true⟩,
    ⟨"MOV__addr16___r", 0xFE, 0x88, 0xC7, 0x06, false⟩,
    ⟨"MOV__ea+disp8___r", 0xFE, 0x88, 0xC0, 0x40, false⟩,
    ⟨"MOV__ea+disp16___r", 0xFE, 0x88, 0xC0, 0x80, false⟩] ++
  [⟨"MOV_r__r__register_field_is_destination", 0xFE, 0x8A, 0xC0, 0xC0, false⟩,
    ⟨"MOV_r___ea", 0xFE, 0x8A, 0xC0, 0x00, true⟩,
    ⟨"MOV_r___addr16", 0xFE, 0x8A, 0xC7, 0x06, false⟩,
    ⟨"MOV_r___ea+disp8", 0xFE, 0x8A, 0xC0, 0x40, false⟩,
    ⟨"MOV_r___ea+disp16", 0xFE, 0x8A, 0xC0, 0x80, false⟩] ++
  [⟨"MOV_r__imm", 0xFE, 0xC6, 0xC0, 0xC0, false⟩,
    ⟨"MOV__ea___byte_word_imm", 0xFE, 0xC6, 0xC0, 0x00, true⟩,
    ⟨"MOV__addr16___byte_word_imm", 0xFE, 0xC6, 0xC7, 0x06, false⟩,
    ⟨"MOV__ea+disp8___byte_word_imm", 0xFE, 0xC6, 0xC0, 0x40, false⟩,
    ⟨"MOV__ea+disp16___byte_word_imm", 0xFE, 0xC6, 0xC0, 0x80, false⟩,
    ⟨"MOV_al_ax___addr16", 0xFE, 0xA0, 0, 0, false⟩,
    ⟨"MOV__addr16___al_ax", 0xFE, 0xA2, 0, 0, false⟩]

/-- A row matches an instruction by its opcode byte and its second byte (R77). -/
def TableRow.hits (r : TableRow) (b0 b1 : Byte) : Bool :=
  b0 &&& r.mask == r.pattern && b1 &&& r.modMask == r.modPattern && !(r.excludeDirect && b1 &&& 0xC7 == 0x06)

/-- The row's mnemonic in spec/opcode_table.json. -/
def Instr.mnemonic : Instr → String
  | .movR8Imm8 _ _ => "MOV_r8__imm8"
  | .movR16Imm16 _ _ => "MOV_r16__imm16"
  | .movRRRegSrc _ _ _ => "MOV_r__r__register_field_is_source"
  | .movEaR _ _ _ => "MOV__ea___r"
  | .movAddrR _ _ _ => "MOV__addr16___r"
  | .movEaDisp8R _ _ _ _ => "MOV__ea+disp8___r"
  | .movEaDisp16R _ _ _ _ => "MOV__ea+disp16___r"
  | .movRRRegDst _ _ _ => "MOV_r__r__register_field_is_destination"
  | .movREa _ _ _ => "MOV_r___ea"
  | .movRAddr _ _ _ => "MOV_r___addr16"
  | .movREaDisp8 _ _ _ _ => "MOV_r___ea+disp8"
  | .movREaDisp16 _ _ _ _ => "MOV_r___ea+disp16"
  | .movRImm _ _ _ => "MOV_r__imm"
  | .movEaImm _ _ _ => "MOV__ea___byte_word_imm"
  | .movAddrImm _ _ _ => "MOV__addr16___byte_word_imm"
  | .movEaDisp8Imm _ _ _ _ => "MOV__ea+disp8___byte_word_imm"
  | .movEaDisp16Imm _ _ _ _ => "MOV__ea+disp16___byte_word_imm"
  | .movAccAddr _ _ => "MOV_al_ax___addr16"
  | .movAddrAcc _ _ => "MOV__addr16___al_ax"

/-! ### The host's numbering of an instruction's bits -/

/-- The bytes of an instruction whose bits are `w`, bit 0 the least significant of the first byte, every bit from
`nbits` up zero, padded with zero bytes to the longest instruction. -/
def tableBytes (nbits w : Nat) : List Byte :=
  (List.range (max Config.maxLength ((nbits + 7) / 8))).map fun k => BitVec.ofNat 8 ((w % 2 ^ nbits) >>> (8 * k))

/-- The instruction the decoder reads from those bytes. -/
def decodeTableWord (nbits w : Nat) : Option Instr :=
  match decodeBytes (tableBytes nbits w) with
  | .ok i => some i
  | .error _ => none

end Sys2Proof
end

