-- ==== Sys2Proof/Machine/State.lean ====
section
/-! DEFINITION. Sys2Proof/Machine/State.lean: the decoder's whole state as plain data, and the reset state
(spec/10_state.md R20 to R31, spec/00_scope.md R9). `ip`, `err` and `out` are the spec's complete state; the byte buffer and
its length are the run's constant inputs and stand beside them (log entry 1). `status` is a function of the state
(R23): Machine/Flags.lean. -/

namespace Sys2Proof.Machine

/-- The byte buffer (20_memory.md R40): `size` is `N`; `cells` lists, by strictly rising offset, the bytes below `N`
that differ from what an unlisted offset reads as (Memory.unlisted in Machine/Ops.lean, log entry 3). -/
structure Memory where
  size : Nat
  cells : List Host.Cell
deriving DecidableEq, Repr

/-- An operand of a decoded record (R9). -/
inductive Operand where
  /-- A register of the given width. -/
  | reg (w : Width) (idx : Idx)
  /-- Base/index expression number `rm`, with or without a signed displacement. -/
  | mem (rm : Idx) (disp : Option Int)
  /-- A 16-bit absolute address, unsigned. -/
  | direct (addr : Nat)
  /-- A signed immediate; `size` is the width qualifier, if one is printed: narrow is `byte`, wide is `word`. -/
  | imm (value : Int) (size : Option Width)
deriving DecidableEq, Repr

/-- A decoded record `Mov(dest, src, len, at)` (R9). `start` is the spec's `at`: the `ip` at which the instruction
started. -/
structure Record where
  dest : Operand
  src : Operand
  len : Nat
  start : Nat
deriving DecidableEq, Repr

/-- One element of the output stream: a record and its line, the line feed included (R25). -/
structure OutElem where
  record : Record
  line : Text
deriving DecidableEq, Repr

/-- The three error kinds (60_exceptions.md R190). -/
inductive ErrKind where
  | outOfRange
  | unsupportedOpcode
  | invalidMode
deriving DecidableEq, Repr

/-- The error record (R24). -/
structure ErrRecord where
  kind : ErrKind
  offset : Nat
  byte : Byte
deriving DecidableEq, Repr

/-- The state of the decoder (R20), with the run's inputs `buf` and `N` (`buf.size`). -/
structure State where
  /-- The instruction pointer (R21). -/
  ip : Nat
  /-- The sticky error record (R24). -/
  err : Option ErrRecord
  /-- The output stream (R25). -/
  out : List OutElem
  /-- The byte buffer and its length (R40). -/
  buf : Memory
deriving DecidableEq, Repr

/-- Why a step stops with a fault. The spec's own errors are not among these: raising one is a next state (R196). -/
inductive Fault where
  /-- Raised by `step` when `ip > N` and no error is latched: R23 gives no status there and R22 says no run reaches
  it. Safe (log entry 5). -/
  | ipPastEnd
deriving DecidableEq, Repr

/-- Why an instruction is refused. -/
inductive Refusal where
  /-- Raised by an arm of `exec` whose instruction has no meaning yet. No arm is left so. Safe. -/
  | notModelled (mnemonic : String)
  /-- Raised by the three no-displacement memory forms on an ill-formed term with RegMem 6, which no byte string
  decodes to: `Mem(6, none)` is never built and has no text (R9, R104). Safe (log entry 6). -/
  | directAddressAsExpression
deriving DecidableEq, Repr

/-- The state right after reset: `ip = 0`, `err = none`, `out` empty (R31, R220). Reset gives the buffer no value; here
nothing is loaded, `N = 0` (log entry 2). -/
def State.reset : State where
  ip := Config.entryPoint
  err := none
  out := []
  buf := ⟨0, []⟩

end Sys2Proof.Machine
end

