-- ==== Sys2Proof/Machine/Flags.lean ====
section
/-! DEFINITION. Sys2Proof/Machine/Flags.lean: the decoder has no flag and no condition code (spec/10_state.md R28); what it
has is a status, a function of the state (R23). -/

namespace Sys2Proof.Machine

/-- The three values of `status` (R23, D11). -/
inductive Status where
  | scanning
  | done
  | failed
deriving DecidableEq, Repr

/-- `status` (R23). None where R23 gives no value: `ip > N` with no error, which no run reaches (R22). -/
def State.status (s : State) : Option Status :=
  if s.err ≠ none then some .failed
  else if s.ip < s.buf.size then some .scanning
  else if s.ip = s.buf.size then some .done
  else none

end Sys2Proof.Machine
end

