-- ==== Sys2Proof/Machine/Operands.lean ====
section
/-! DEFINITION. Sys2Proof/Machine/Operands.lean: register_name_lut, addressing_mode_formatter, the decimal rendering and the
text of a record (spec/41_name_tables.md R100 to R109, spec/30_encoding.md R71 to R73, R80, R81), and the operand each
field of an instruction becomes. -/

namespace Sys2Proof.Machine

/-- The octets of an ASCII string (R81). -/
def ascii (s : String) : Text := s.toList.map fun c => BitVec.ofNat 8 c.toNat

/-- The line feed that ends every line (R81). -/
def lineFeed : Byte := 0x0A

/-! ### Signedness (00_scope.md R8, 20_memory.md R45) -/

/-- `sext_16`: the byte's top bit repeated eight times above it. -/
def sext16 (v : Byte) : Word := v.signExtend 16

/-- `signed16`: the word if below 32768, else the word less 65536. -/
def signed16 (v : Word) : Int := if v.toNat < 32768 then v.toNat else (v.toNat : Int) - 65536

/-- `unsigned16`. -/
def unsigned16 (v : Word) : Nat := v.toNat

/-- The value of an immediate: sign-extended when narrow, signed in both widths (R71, D7). -/
def immValue : Imm → Int
  | .imm8 v => signed16 (sext16 v)
  | .imm16 v => signed16 v

/-! ### Dec (R108) -/

/-- The ASCII code of a decimal digit. -/
def digitChar (d : Nat) : Byte := BitVec.ofNat 8 (0x30 + d)

/-- The digits of `n` in front of `acc`, the least significant last; `fuel` above `n` is always enough. -/
def digitsInto : Nat → Nat → Text → Text
  | 0, _, acc => acc
  | fuel + 1, n, acc =>
    if n < Config.numberBase then digitChar n :: acc
    else digitsInto fuel (n / Config.numberBase) (digitChar (n % Config.numberBase) :: acc)

/-- Decimal text of a natural number, most significant digit first, no leading zero. -/
def decNat (n : Nat) : Text := digitsInto (n + 1) n []

/-- `Dec(n)`: a minus sign before a negative number, never a plus sign (R108). -/
def dec (n : Int) : Text := if n < 0 then ascii "-" ++ decNat n.natAbs else decNat n.natAbs

/-! ### register_name_lut (R100) -/

/-- `RegName(w, idx)`. -/
def regName : Width → Idx → Text
  | .narrow, 0 => ascii "al"
  | .narrow, 1 => ascii "cl"
  | .narrow, 2 => ascii "dl"
  | .narrow, 3 => ascii "bl"
  | .narrow, 4 => ascii "ah"
  | .narrow, 5 => ascii "ch"
  | .narrow, 6 => ascii "dh"
  | .narrow, 7 => ascii "bh"
  | .wide, 0 => ascii "ax"
  | .wide, 1 => ascii "cx"
  | .wide, 2 => ascii "dx"
  | .wide, 3 => ascii "bx"
  | .wide, 4 => ascii "sp"
  | .wide, 5 => ascii "bp"
  | .wide, 6 => ascii "si"
  | .wide, 7 => ascii "di"

/-! ### addressing_mode_formatter (R103, R106, R107) -/

/-- `EaName(rm, hasDisp)`; index 6 with no displacement is the direct address and has no name (R103, R104). -/
def eaName : Idx → Bool → Option Text
  | 0, _ => some (ascii "bx+si")
  | 1, _ => some (ascii "bx+di")
  | 2, _ => some (ascii "bp+si")
  | 3, _ => some (ascii "bp+di")
  | 4, _ => some (ascii "si")
  | 5, _ => some (ascii "di")
  | 6, false => none
  | 6, true => some (ascii "bp")
  | 7, _ => some (ascii "bx")

/-- Text between square brackets. -/
def bracketed (t : Text) : Text := ascii "[" ++ t ++ ascii "]"

/-- The displacement with its joining sign; zero is `+0` (R106, D5). -/
def dispText (d : Int) : Text := if 0 ≤ d then ascii "+" ++ dec d else ascii "-" ++ dec (-d)

/-- `MemText(rm, disp)` (R106). -/
def memText (rm : Idx) : Option Int → Option Text
  | none => (eaName rm false).map bracketed
  | some d => (eaName rm true).map fun e => bracketed (e ++ dispText d)

/-- The width qualifier and its space (R80, R81). -/
def qualifier : Option Width → Text
  | none => []
  | some .narrow => ascii "byte "
  | some .wide => ascii "word "

/-- `OperandText` (R80). None only for `Mem(6, none)`, which is never built (R9). -/
def operandText : Operand → Option Text
  | .reg w idx => some (regName w idx)
  | .mem rm d => memText rm d
  | .direct a => some (bracketed (dec a))
  | .imm v size => some (qualifier size ++ dec v)

/-- `Text(rec)`, without the line feed (R80). -/
def recordText (r : Record) : Option Text := do
  let d ← operandText r.dest
  let s ← operandText r.src
  return ascii "mov " ++ d ++ ascii ", " ++ s

/-! ### The operand a form becomes (R109, R150) -/

/-- The operand part of `DecodeRM`, in the instruction's width (R109). -/
def rmOperand (w : Width) : RmForm → Operand
  | .register rm => .reg w rm
  | .expr rm => .mem rm none
  | .direct a => .direct (unsigned16 a)
  | .disp8 rm d => .mem rm (some (signed16 (sext16 d)))
  | .disp16 rm d => .mem rm (some (signed16 d))

/-- The width qualifier of family 3: none in register mode, else by the Word bit (R150, D9). -/
def rmQualifier (w : Width) : RmForm → Option Width
  | .register _ => none
  | .expr _ => some w
  | .direct _ => some w
  | .disp8 _ _ => some w
  | .disp16 _ _ => some w

end Sys2Proof.Machine
end

