-- ==== Sys2Proof/Machine/Ops.lean ====
section
/-! DEFINITION. Sys2Proof/Machine/Ops.lean: the operations the meanings share: the byte buffer and its two read primitives
(spec/20_memory.md), emitting a record (10_state.md R25), advancing `ip` (46_decode_loop.md R181), raising an error
(60_exceptions.md R196) and the only way out of one, reset (60_exceptions.md R197, 70_reset_and_hazards.md R220). -/

namespace Sys2Proof.Machine

/-! ### The byte buffer -/

/-- What an offset below `N` that no cell lists reads as (log entry 3). -/
def Memory.unlisted : Byte := 0

/-- The byte listed for an offset, or `Memory.unlisted`. -/
def Memory.lookup : List Host.Cell → Nat → Byte
  | [], _ => Memory.unlisted
  | (k, v) :: rest, a => if k = a then v else Memory.lookup rest a

/-- `ReadByte(a)`: the byte, or none when `a >= N` (R43). -/
def Memory.readByte (m : Memory) (a : Nat) : Option Byte :=
  if a < m.size then some (Memory.lookup m.cells a) else none

/-- `ReadWord(a)`: one check for the whole word, little-endian (R44, R47). -/
def Memory.readWord (m : Memory) (a : Nat) : Option Word :=
  if a + 1 < m.size then some (leWord (Memory.lookup m.cells a) (Memory.lookup m.cells (a + 1))) else none

/-- Every offset of a cell list is at least `lo` and below `size`, offsets rise strictly, no byte is the unlisted one. -/
def Memory.cellsWf (size : Nat) : Nat → List Host.Cell → Bool
  | _, [] => true
  | lo, (k, v) :: rest =>
    decide (lo ≤ k) && decide (k < size) && v != Memory.unlisted && Memory.cellsWf size (k + 1) rest

/-- The canonical form of the buffer: equal buffers are equal data. -/
def Memory.wf (m : Memory) : Bool := Memory.cellsWf m.size 0 m.cells

/-- Put a byte into a cell list, keeping the canonical form. -/
def Memory.pokeCells (a : Nat) (v : Byte) : List Host.Cell → List Host.Cell
  | [] => if v = Memory.unlisted then [] else [(a, v)]
  | (k, u) :: rest =>
    if a < k then if v = Memory.unlisted then (k, u) :: rest else (a, v) :: (k, u) :: rest
    else if a = k then if v = Memory.unlisted then rest else (a, v) :: rest
    else (k, u) :: Memory.pokeCells a v rest

/-- Place one byte, the loader's act (R40); the buffer grows to hold it. No step uses it. -/
def Memory.poke (m : Memory) (a : Nat) (v : Byte) : Memory where
  size := max m.size (a + 1)
  cells := Memory.pokeCells a v m.cells

/-- Place bytes at consecutive offsets from `a`. -/
def Memory.pokeBytes (m : Memory) (a : Nat) : List Byte → Memory
  | [] => m
  | b :: bs => Memory.pokeBytes (m.poke a b) (a + 1) bs

/-- The buffer holding exactly the given bytes (R40, R222). -/
def Memory.ofBytes (bs : List Byte) : Memory := Memory.pokeBytes ⟨0, []⟩ 0 bs

/-! ### Fetching and decoding at `ip` -/

/-- The decoder's reads, made at `ip` plus the relative offset (R21, R45). -/
def State.reader (s : State) : Reader where
  byte k := s.buf.readByte (s.ip + k)
  word k := s.buf.readWord (s.ip + k)

/-- The instruction at `ip`, or why there is none (46_decode_loop.md R180). -/
def State.fetch (s : State) : Except Reject Instr := decode s.reader

/-- `buf[a]`; used where the byte exists (R191). -/
def State.byteAt (s : State) (a : Nat) : Byte := Memory.lookup s.buf.cells a

/-! ### Errors: entry and return -/

/-- `raise K(offset, byte)`: latch the record, nothing else (R196). -/
def State.raise (s : State) (e : ErrRecord) : State := { s with err := some e }

/-- The record of a rejection (R191 to R193, D10). -/
def State.errorOf (s : State) : Reject → ErrRecord
  | .outOfRange off => ⟨.outOfRange, s.ip + off, s.byteAt s.ip⟩
  | .unsupportedOpcode b => ⟨.unsupportedOpcode, s.ip, b⟩
  | .invalidMode b => ⟨.invalidMode, s.ip + 1, b⟩

/-- Reset: a new run from offset 0 on the buffer as it stands; the only way out of `Failed` and `Done`
(R197, R220, R221). -/
def State.applyReset (s : State) : State := { s with ip := Config.entryPoint, err := none, out := [] }

/-! ### Emitting and advancing -/

/-- `emit(rec)` with the record's text: append the pair, the line feed added (R25). -/
def State.emit (s : State) (r : Record) (t : Text) : State := { s with out := s.out ++ [⟨r, t ++ [lineFeed]⟩] }

/-- `ip <- ip + len` (R181). -/
def State.advance (s : State) (len : Nat) : State := { s with ip := s.ip + len }

/-- The end of every decoder routine and of the step: emit `Mov(dest, src, len, at = ip)` and advance (R120, R130, R150,
R170, R180). A record without text is never built from bytes (R9): it is refused. -/
def completeMov (dest src : Operand) (len : Nat) (s : State) : Host.Outcome State Fault Refusal :=
  match recordText ⟨dest, src, len, s.ip⟩ with
  | some t => .next ((s.emit ⟨dest, src, len, s.ip⟩ t).advance len)
  | none => .refused .directAddressAsExpression

/-- All text emitted so far, line after line (R25). -/
def State.outText (s : State) : Text := (s.out.map OutElem.line).flatten

end Sys2Proof.Machine
end

