-- ==== Sys2Proof/Machine/Accumulator.lean ====
section
/-! DEFINITION. Sys2Proof/Machine/Accumulator.lean: families 4 and 5, the accumulator forms
(spec/45_mov_accumulator.md). -/

namespace Sys2Proof.Machine

/-- The accumulator: `al` or `ax`, index 0 (R170). -/
def accumulator (w : Width) : Operand := .reg w 0

/-- The length of both accumulator forms (R170). -/
def accumulatorLength : Nat := 3

/-- R171. -/
def execMovAccAddr (w : Width) (addr : Word) (s : State) : Host.Outcome State Fault Refusal :=
  completeMov (accumulator w) (.direct (unsigned16 addr)) accumulatorLength s

/-- R172. -/
def execMovAddrAcc (w : Width) (addr : Word) (s : State) : Host.Outcome State Fault Refusal :=
  completeMov (.direct (unsigned16 addr)) (accumulator w) accumulatorLength s

end Sys2Proof.Machine
end

