-- ==== Sys2Proof/Machine/ImmToReg.lean ====
section
/-! DEFINITION. Sys2Proof/Machine/ImmToReg.lean: family 1, immediate-to-register (spec/42_mov_imm_to_reg.md). -/

namespace Sys2Proof.Machine

/-- R120, after its reads: no width qualifier, length `2 + w`. -/
def movImmToReg (w : Width) (reg : Idx) (imm : Imm) (s : State) : Host.Outcome State Fault Refusal :=
  completeMov (.reg w reg) (.imm (immValue imm) none) (1 + immSize w) s

/-- R121. -/
def execMovR8Imm8 (reg : Idx) (imm : Byte) (s : State) : Host.Outcome State Fault Refusal :=
  movImmToReg .narrow reg (.imm8 imm) s

/-- R122. -/
def execMovR16Imm16 (reg : Idx) (imm : Word) (s : State) : Host.Outcome State Fault Refusal :=
  movImmToReg .wide reg (.imm16 imm) s

end Sys2Proof.Machine
end

