-- ==== Sys2Proof/Machine/ImmToRm.lean ====
section
/-! DEFINITION. Sys2Proof/Machine/ImmToRm.lean: family 3, immediate-to-register/memory (spec/44_mov_imm_to_rm.md). The
Register field `x` is ignored (R150, D18). -/

namespace Sys2Proof.Machine

/-- R150, after its reads. -/
def movImmToRm (imm : Imm) (m : RmForm) (s : State) : Host.Outcome State Fault Refusal :=
  completeMov (rmOperand imm.width m) (.imm (immValue imm) (rmQualifier imm.width m))
    (2 + m.dispSize + immSize imm.width) s

/-- R151. -/
def execMovRImm (_x rm : Idx) (imm : Imm) (s : State) : Host.Outcome State Fault Refusal :=
  movImmToRm imm (.register rm) s

/-- R152. -/
def execMovEaImm (_x rm : Idx) (imm : Imm) (s : State) : Host.Outcome State Fault Refusal :=
  movImmToRm imm (.expr rm) s

/-- R153. -/
def execMovAddrImm (_x : Idx) (addr : Word) (imm : Imm) (s : State) : Host.Outcome State Fault Refusal :=
  movImmToRm imm (.direct addr) s

/-- R154. -/
def execMovEaDisp8Imm (_x rm : Idx) (disp : Byte) (imm : Imm) (s : State) : Host.Outcome State Fault Refusal :=
  movImmToRm imm (.disp8 rm disp) s

/-- R155. -/
def execMovEaDisp16Imm (_x rm : Idx) (disp : Word) (imm : Imm) (s : State) : Host.Outcome State Fault Refusal :=
  movImmToRm imm (.disp16 rm disp) s

end Sys2Proof.Machine
end

