-- ==== Sys2Proof/Machine/RmReg.lean ====
section
/-! DEFINITION. Sys2Proof/Machine/RmReg.lean: family 2, register/memory to/from register (spec/43_mov_rm_reg.md). -/

namespace Sys2Proof.Machine

/-- R130 with Direction 0: the register/memory operand is the destination. -/
def movRegToRm (w : Width) (reg : Idx) (m : RmForm) (s : State) : Host.Outcome State Fault Refusal :=
  completeMov (rmOperand w m) (.reg w reg) (2 + m.dispSize) s

/-- R130 with Direction 1: the register operand is the destination. -/
def movRmToReg (w : Width) (reg : Idx) (m : RmForm) (s : State) : Host.Outcome State Fault Refusal :=
  completeMov (.reg w reg) (rmOperand w m) (2 + m.dispSize) s

/-- R131, Direction 0. -/
def execMovRRRegSrc (w : Width) (reg rm : Idx) (s : State) : Host.Outcome State Fault Refusal :=
  movRegToRm w reg (.register rm) s

/-- R132, Direction 0. -/
def execMovEaR (w : Width) (reg rm : Idx) (s : State) : Host.Outcome State Fault Refusal :=
  movRegToRm w reg (.expr rm) s

/-- R133, Direction 0. -/
def execMovAddrR (w : Width) (reg : Idx) (addr : Word) (s : State) : Host.Outcome State Fault Refusal :=
  movRegToRm w reg (.direct addr) s

/-- R134, Direction 0. -/
def execMovEaDisp8R (w : Width) (reg rm : Idx) (disp : Byte) (s : State) : Host.Outcome State Fault Refusal :=
  movRegToRm w reg (.disp8 rm disp) s

/-- R135, Direction 0. -/
def execMovEaDisp16R (w : Width) (reg rm : Idx) (disp : Word) (s : State) : Host.Outcome State Fault Refusal :=
  movRegToRm w reg (.disp16 rm disp) s

/-- R131, Direction 1. -/
def execMovRRRegDst (w : Width) (reg rm : Idx) (s : State) : Host.Outcome State Fault Refusal :=
  movRmToReg w reg (.register rm) s

/-- R132, Direction 1. -/
def execMovREa (w : Width) (reg rm : Idx) (s : State) : Host.Outcome State Fault Refusal :=
  movRmToReg w reg (.expr rm) s

/-- R133, Direction 1. -/
def execMovRAddr (w : Width) (reg : Idx) (addr : Word) (s : State) : Host.Outcome State Fault Refusal :=
  movRmToReg w reg (.direct addr) s

/-- R134, Direction 1. -/
def execMovREaDisp8 (w : Width) (reg rm : Idx) (disp : Byte) (s : State) : Host.Outcome State Fault Refusal :=
  movRmToReg w reg (.disp8 rm disp) s

/-- R135, Direction 1. -/
def execMovREaDisp16 (w : Width) (reg rm : Idx) (disp : Word) (s : State) : Host.Outcome State Fault Refusal :=
  movRmToReg w reg (.disp16 rm disp) s

end Sys2Proof.Machine
end

