-- ==== Sys2Proof/Machine/Dispatch.lean ====
section
/-! DEFINITION. Sys2Proof/Machine/Dispatch.lean: one arm per constructor of Instr. -/

namespace Sys2Proof.Machine

/-- What an instruction does, standing at `ip` of a Scanning state with all its bytes inside the buffer. -/
def exec (i : Instr) (s : State) : Host.Outcome State Fault Refusal :=
  match i with
  | .movR8Imm8 reg imm => Sys2Proof.Machine.execMovR8Imm8 reg imm s
  | .movR16Imm16 reg imm => Sys2Proof.Machine.execMovR16Imm16 reg imm s
  | .movRRRegSrc w reg rm => Sys2Proof.Machine.execMovRRRegSrc w reg rm s
  | .movEaR w reg rm => Sys2Proof.Machine.execMovEaR w reg rm s
  | .movAddrR w reg addr => Sys2Proof.Machine.execMovAddrR w reg addr s
  | .movEaDisp8R w reg rm disp => Sys2Proof.Machine.execMovEaDisp8R w reg rm disp s
  | .movEaDisp16R w reg rm disp => Sys2Proof.Machine.execMovEaDisp16R w reg rm disp s
  | .movRRRegDst w reg rm => Sys2Proof.Machine.execMovRRRegDst w reg rm s
  | .movREa w reg rm => Sys2Proof.Machine.execMovREa w reg rm s
  | .movRAddr w reg addr => Sys2Proof.Machine.execMovRAddr w reg addr s
  | .movREaDisp8 w reg rm disp => Sys2Proof.Machine.execMovREaDisp8 w reg rm disp s
  | .movREaDisp16 w reg rm disp => Sys2Proof.Machine.execMovREaDisp16 w reg rm disp s
  | .movRImm x rm imm => Sys2Proof.Machine.execMovRImm x rm imm s
  | .movEaImm x rm imm => Sys2Proof.Machine.execMovEaImm x rm imm s
  | .movAddrImm x addr imm => Sys2Proof.Machine.execMovAddrImm x addr imm s
  | .movEaDisp8Imm x rm disp imm => Sys2Proof.Machine.execMovEaDisp8Imm x rm disp imm s
  | .movEaDisp16Imm x rm disp imm => Sys2Proof.Machine.execMovEaDisp16Imm x rm disp imm s
  | .movAccAddr w addr => Sys2Proof.Machine.execMovAccAddr w addr s
  | .movAddrAcc w addr => Sys2Proof.Machine.execMovAddrAcc w addr s

end Sys2Proof.Machine
end

