-- ==== Sys2Proof/Machine/Step.lean ====
section
/-! DEFINITION. Sys2Proof/Machine/Step.lean: one step of the decode loop (spec/46_decode_loop.md R180 to R183). -/

namespace Sys2Proof.Machine

/-- In `Scanning`, decode one instruction at `ip` and run it, or raise its error (R180). In `Done` and `Failed` no step
is enabled and the state no longer changes (R183): the host's step answers the same state (log entry 4). -/
def step (s : State) : Host.Outcome State Fault Refusal :=
  match s.status with
  | some .scanning =>
    match s.fetch with
    | .ok i => exec i s
    | .error r => .next (s.raise (s.errorOf r))
  | some .done => .next s
  | some .failed => .next s
  | none => .fault .ipPastEnd

/-- `s` with the instruction's bytes placed at `ip` and no error latched, so that the next step runs it. This is the
loader's act: a program is always placed from outside (log entry 2). -/
def State.withFetchWord (s : State) (nbits w : Nat) : State :=
  { s with err := none, buf := s.buf.pokeBytes s.ip (tableBytes nbits w) }

end Sys2Proof.Machine
end

