-- ==== Sys2Proof/Machine/Interface.lean ====
section
/-! DEFINITION. Sys2Proof/Machine/Interface.lean: what crosses the boundary of the block at transaction level
(spec/46_decode_loop.md R188, 70_reset_and_hazards.md R224): the loader's act, and the read-only views a hardware build gives
(10_state.md R26, 40_opcode_classifier.md R95, 41_name_tables.md R102, R110). The codes and packings are the spec's own
(D16). All are functions of the state or of their inputs: none is state. -/

namespace Sys2Proof.Machine

/-- The host loads a buffer while the decoder is held in reset, then releases reset (R53, R222, R224). -/
def State.load (s : State) (bytes : List Byte) : State := { s with buf := Memory.ofBytes bytes }.applyReset

/-! ### STATUS, ERR_OFFSET, IP, FAMILY (R26) -/

/-- `phase`; code 3 is never read: it stands for the states R23 gives no status (log entry 5). -/
def phaseCode : Option Status → BitVec 2
  | some .scanning => 0
  | some .done => 1
  | some .failed => 2
  | none => 3

/-- `err_kind`, 0 while no error is latched. -/
def errKindCode : Option ErrRecord → BitVec 2
  | none => 0
  | some e =>
    match e.kind with
    | .outOfRange => 1
    | .unsupportedOpcode => 2
    | .invalidMode => 3

/-- `err_byte`, 0 while no error is latched. -/
def errByteCode : Option ErrRecord → Byte
  | none => 0
  | some e => e.byte

/-- `STATUS`: `err_byte` in bits 11:4, `err_kind` in 3:2, `phase` in 1:0. -/
def State.statusReg (s : State) : BitVec 12 := errByteCode s.err ++ errKindCode s.err ++ phaseCode s.status

/-- `ERR_OFFSET` of a build whose offsets are `offw` bits wide, 0 while no error is latched. -/
def State.errOffsetReg (s : State) (offw : Nat) : BitVec offw :=
  match s.err with
  | none => 0
  | some e => BitVec.ofNat offw e.offset

/-- `IP` of a build whose offsets are `offw` bits wide. -/
def State.ipReg (s : State) (offw : Nat) : BitVec offw := BitVec.ofNat offw s.ip

/-- The family code: 0 to 4 in table order, 7 for no match (R26, R95). -/
def familyCode : Option Family → BitVec 3
  | some .immToReg => 0
  | some .rmReg => 1
  | some .immToRm => 2
  | some .memToAcc => 3
  | some .accToMem => 4
  | none => 7

/-- `FAMILY`: the classifier's output for `buf[ip]`, where that byte exists (R26). -/
def State.familyPort (s : State) : Option (BitVec 3) := (s.buf.readByte s.ip).map fun b => familyCode (classify b)

/-! ### Sub-blocks -/

/-- `opcode_classifier`: outputs `hit` and `family[2:0]` (R95). -/
def opcodeClassifier (opcode : Byte) : Bool × BitVec 3 := ((classify opcode).isSome, familyCode (classify opcode))

/-- `register_name_lut`: output `name[15:0]`, the first character in bits 15:8 (R102). -/
def registerNameLut (w : Width) (idx : Idx) : BitVec 16 := (regName w idx).getD 0 0 ++ (regName w idx).getD 1 0

/-- The operand `addressing_mode_formatter` is asked for; `value` is the raw address, or the displacement with an 8-bit
one already sign-extended (R110). -/
def formatterOperand (mode : BitVec 2) (rm : Idx) (w : Width) (value : Word) : Operand :=
  if mode = 3 then .reg w rm
  else if mode = 0 then if rm = directAddressRm then .direct (unsigned16 value) else .mem rm none
  else .mem rm (some (signed16 value))

/-- `addressing_mode_formatter`: the operand's text (R110). -/
def addressingModeFormatter (mode : BitVec 2) (rm : Idx) (w : Width) (value : Word) : Option Text :=
  operandText (formatterOperand mode rm w value)

end Sys2Proof.Machine
end

