-- ==== Sys2Proof/Safety.lean ====
section
/-! DEFINITION. Sys2Proof/Safety.lean: the terms in which statements speak of a run: how it ends
(spec/46_decode_loop.md R184) and the invariant of every state between steps (spec/10_state.md R22, R24, R25). -/

namespace Sys2Proof.Machine

/-- A run has ended: `Done` or `Failed` (R184). -/
def State.ended (s : State) : Prop := s.status = some .done ∨ s.status = some .failed

/-- From `lo` to `hi` without gap or overlap: every record starts where the one before it ended (R25, R181, R184). -/
def contiguous : Nat → List OutElem → Nat → Prop
  | lo, [], hi => lo = hi
  | lo, e :: es, hi => e.record.start = lo ∧ contiguous (lo + e.record.len) es hi

/-- An element of `out` is well made: its length is one of R70's and its line is the record's text and a line feed, of 9
to 30 characters before it (R25, R70, R83). -/
def OutElem.Wf (e : OutElem) : Prop :=
  2 ≤ e.record.len ∧ e.record.len ≤ 6 ∧
    ∃ t, recordText e.record = some t ∧ e.line = t ++ [lineFeed] ∧ 9 ≤ t.length ∧ t.length ≤ 30

/-- An element of `out` is what one step at its own offset, on the same buffer, appends. -/
def OutElem.DecodedFrom (e : OutElem) (m : Memory) : Prop :=
  ∃ t, step ⟨e.record.start, none, [], m⟩ = .next t ∧ t.out = [e]

/-- A latched error is one of the two reachable kinds and says where and why (R191 to R193). An OutOfRange offset is that
of a read whose first missing byte is the one past the end: `N`, or `N - 1` when only a word's high byte is missing
(95_test_vectors.md V-LOOP). -/
def State.Explains (s : State) (e : ErrRecord) : Prop :=
  s.ip < s.buf.size ∧ e.byte = s.byteAt s.ip ∧
    ((e.kind = .unsupportedOpcode ∧ e.offset = s.ip ∧ classify e.byte = none) ∨
      (e.kind = .outOfRange ∧ s.ip < e.offset ∧ e.offset ≤ s.buf.size ∧ s.buf.size ≤ e.offset + 1 ∧
        classify e.byte ≠ none))

/-- What holds in every state between steps. -/
structure State.Inv (s : State) : Prop where
  bufCanonical : s.buf.wf = true
  ipInRange : s.ip ≤ s.buf.size
  outCovers : contiguous 0 s.out s.ip
  outWf : ∀ e ∈ s.out, e.Wf
  outDecoded : ∀ e ∈ s.out, e.DecodedFrom s.buf
  errExplained : ∀ e, s.err = some e → s.Explains e

end Sys2Proof.Machine
end

