-- ==== Sys2Proof/Certificates/Slice0/Obligations.lean ====
section
/-! DEFINITION. Sys2Proof/Certificates/Slice0/Obligations.lean: the statements for the provers, from the numbered rules of
spec/. Values are written with Lean's own two's-complement reading (`BitVec.toInt`) and byte concatenation (`hi ++ lo`),
not with the model's functions, so that a statement checks them. -/

open Sys2Proof Sys2Proof.Machine

namespace Sys2Proof.Claims

/-- The bytes of `mov <dest>, <src>` (30_encoding.md R80). -/
def movLine (dest src : Text) : Text := ascii "mov " ++ dest ++ ascii ", " ++ src

/-- `s` after `emit(Mov(dest, src, len, at = ip))` with the given text and `ip <- ip + len`: nothing else changed. -/
def emitted (s : State) (dest src : Operand) (len : Nat) (text : Text) : State :=
  { s with ip := s.ip + len, out := s.out ++ [⟨⟨dest, src, len, s.ip⟩, text ++ [0x0A]⟩] }

/-- `s` after `raise kind(offset, byte)`: nothing but `err` changed (60_exceptions.md R196). -/
def raised (s : State) (kind : ErrKind) (offset : Nat) (byte : Byte) : State := { s with err := some ⟨kind, offset, byte⟩ }

/-- Direction 1: the register operand `r` is the destination. Direction 0: the register/memory operand `m` is. -/
def emittedByDirection (s : State) (d : BitVec 1) (m r : Operand × Text) (len : Nat) : State :=
  if d = 1 then emitted s r.1 m.1 len (movLine r.2 m.2) else emitted s m.1 r.1 len (movLine m.2 r.2)

/-- The buffer holds, at `p`, an immediate of width `w` whose signed value is `v` (30_encoding.md R71). -/
def ImmAt (s : State) (p : Nat) (w : Width) (v : Int) : Prop :=
  match w with
  | .narrow => ∃ b, s.buf.readByte p = some b ∧ v = b.toInt
  | .wide => ∃ lo hi : Byte, s.buf.readByte p = some lo ∧ s.buf.readByte (p + 1) = some hi ∧ v = (hi ++ lo).toInt

/-- The width qualifier and its space. -/
def sizeText : Width → Text
  | .narrow => ascii "byte "
  | .wide => ascii "word "

/-- The length row of 30_encoding.md R70 for an opcode byte and the byte after it. -/
def lengthRow (b0 b1 : Byte) : Nat :=
  let mode := b1.toNat / 64
  let ds := if mode = 3 then 0 else if mode = 0 then (if b1.toNat % 8 = 6 then 2 else 0) else mode
  if 0xB0 ≤ b0.toNat ∧ b0.toNat ≤ 0xBF then 2 + b0.toNat / 8 % 2
  else if 0x88 ≤ b0.toNat ∧ b0.toNat ≤ 0x8B then 2 + ds
  else if b0.toNat = 0xC6 ∨ b0.toNat = 0xC7 then 3 + ds + b0.toNat % 2
  else 3

/-- The number a string of decimal digits stands for. -/
def digitsValue (t : Text) : Nat := t.foldl (fun n c => 10 * n + (c.toNat - 0x30)) 0

/-- The input ports of `addressing_mode_formatter` for a register/memory form: Mode, RegMem, raw value
(41_name_tables.md R110). -/
def formatterPorts : RmForm → BitVec 2 × Idx × Word
  | .register rm => (3, rm, 0)
  | .expr rm => (0, rm, 0)
  | .direct a => (0, 6, a)
  | .disp8 rm d => (1, rm, d.signExtend 16)
  | .disp16 rm d => (2, rm, d)

end Sys2Proof.Claims

open Sys2Proof.Claims

/-! ### Encoding -/

/-- Decode and encode agree on every well-formed instruction, whatever bytes follow it (30_encoding.md section 2). -/
def Obligations.DecodeOfEncodeIsTheInstruction : Prop :=
  ∀ (i : Instr) (rest : List Byte), WellFormed i = true → decodeBytes (encode i ++ rest) = .ok i

/-- The other direction: bytes that decode are exactly the encoding of what they decode to, which is well formed; so no
bit of an encoding is dropped. -/
def Obligations.DecodedBytesAreTheEncoding : Prop :=
  ∀ (bs : List Byte) (i : Instr), decodeBytes bs = .ok i → WellFormed i = true ∧ ∃ rest, bs = encode i ++ rest

/-- Words of every family written out from 30_encoding.md R64 decode to their instructions. -/
def Obligations.WordsFromTheEncodingsDecode : Prop :=
  decodeBytes [0b10110001, 0b00001100] = .ok (.movR8Imm8 1 12) ∧
  decodeBytes [0b10111000, 0b00000001, 0b00000000] = .ok (.movR16Imm16 0 1) ∧
  decodeBytes [0b10001001, 0b11011000] = .ok (.movRRRegSrc .wide 3 0) ∧
  decodeBytes [0b10001010, 0b01100000, 0b00000100] = .ok (.movREaDisp8 .narrow 4 0 4) ∧
  decodeBytes [0b11000111, 0b00000110, 0x00, 0x10, 0x05, 0x00] = .ok (.movAddrImm 0 0x1000 (.imm16 5)) ∧
  decodeBytes [0b10100000, 0x00, 0x10] = .ok (.movAccAddr .narrow 0x1000) ∧
  decodeBytes [0b10100011, 0xFA, 0x09] = .ok (.movAddrAcc .wide 0x09FA)

/-- 40_opcode_classifier.md R92: the classifier is the ordered list of five masked tests, and evaluating the rows in any
order gives the same answer. The third and fifth patterns are the spec's decisions D1 and D3. -/
def Obligations.ClassifierFollowsTheTableInAnyOrder : Prop :=
  (∀ b : Byte, classify b =
    if b &&& 0xF0 = 0xB0 then some .immToReg
    else if b &&& 0xFC = 0x88 then some .rmReg
    else if b &&& 0xFE = 0xC6 then some .immToRm
    else if b &&& 0xFE = 0xA0 then some .memToAcc
    else if b &&& 0xFE = 0xA2 then some .accToMem
    else none) ∧
  ∀ rows : List ClassRow, rows.Perm classifierTable → ∀ b, classifyWith rows b = classify b

/-- 30_encoding.md section 4: the accepted opcode bytes are the listed ranges, 26 of the 256. -/
def Obligations.AcceptedOpcodeBytes : Prop :=
  (∀ b : Byte, classify b ≠ none ↔
    (0x88 ≤ b.toNat ∧ b.toNat ≤ 0x8B) ∨ (0xA0 ≤ b.toNat ∧ b.toNat ≤ 0xA3) ∨ (0xB0 ≤ b.toNat ∧ b.toNat ≤ 0xBF) ∨
      b.toNat = 0xC6 ∨ b.toNat = 0xC7) ∧
  ((List.range 256).filter fun n => (classify (BitVec.ofNat 8 n)).isSome).length = 26

/-- 30_encoding.md R70: the length of every decoded form is its table row, so no byte after the mod byte has a say; it is
between 2 and 6 and lies inside the bytes given. -/
def Obligations.LengthIsTheTableRow : Prop :=
  ∀ (b0 b1 : Byte) (rest : List Byte) (i : Instr), decodeBytes (b0 :: b1 :: rest) = .ok i →
    i.length = lengthRow b0 b1 ∧ 2 ≤ i.length ∧ i.length ≤ 6 ∧ i.length ≤ rest.length + 2

/-- 30_encoding.md R77: an accepted opcode byte with any second byte matches exactly one row of the opcode table, that of
the instruction decoded; a rejected opcode byte matches no row. -/
def Obligations.EveryAcceptedPairMatchesOneTableRow : Prop :=
  (∀ (b0 b1 : Byte) (rest : List Byte) (i : Instr), decodeBytes (b0 :: b1 :: rest) = .ok i →
    (opcodeTable.filter fun r => r.hits b0 b1).map TableRow.mnemonic = [i.mnemonic]) ∧
  (∀ b0 b1 : Byte, classify b0 ≠ none → ∃ i, decodeBytes [b0, b1, 0, 0, 0, 0] = .ok i) ∧
  ∀ b0 b1 : Byte, classify b0 = none → opcodeTable.filter (fun r => r.hits b0 b1) = []

/-! ### The byte buffer -/

/-- 20_memory.md section 2: after a load, a byte read gives the loaded byte below `N` and fails from `N` on; a word read gives
two bytes, the lower offset less significant, and fails as a whole unless both exist. -/
def Obligations.LoadedBytesAreReadBack : Prop :=
  ∀ (bs : List Byte) (a : Nat),
    (Memory.ofBytes bs).size = bs.length ∧
    (Memory.ofBytes bs).readByte a = bs[a]? ∧
    (∀ lo hi : Byte, bs[a]? = some lo → bs[a + 1]? = some hi → (Memory.ofBytes bs).readWord a = some (hi ++ lo)) ∧
    (bs.length ≤ a + 1 → (Memory.ofBytes bs).readWord a = none)

/-- The canonical form: two buffers of one length that read the same everywhere are equal data (log entry 3). -/
def Obligations.EqualReadsAreEqualBuffers : Prop :=
  ∀ m n : Memory, m.wf = true → n.wf = true → m.size = n.size → (∀ a, m.readByte a = n.readByte a) → m = n

/-! ### One step -/

/-- A step runs the decoded instruction: in `Scanning`, when the bytes at `ip` decode to `i`, the step is exec of `i`; it
adds nothing around it (46_decode_loop.md section 1). -/
def Obligations.StepRunsTheDecodedInstruction : Prop :=
  ∀ (s : State) (i : Instr), s.status = some .scanning → s.fetch = .ok i → step s = exec i s

/-- When the encoding of a well-formed instruction stands at `ip`, the step runs that instruction. -/
def Obligations.BytesAtIpRunTheirInstruction : Prop :=
  ∀ (s : State) (i : Instr), s.status = some .scanning → WellFormed i = true →
    (∀ k, k < (encode i).length → s.buf.readByte (s.ip + k) = (encode i)[k]?) → step s = exec i s

/-- 42_mov_imm_to_reg.md R121. The two numbers of the OutOfRange record are the spec's decision D10, in this and every
later statement. -/
def Obligations.MovR8Imm8Rule : Prop :=
  ∀ (s : State) (reg : Idx), s.status = some .scanning → s.buf.readByte s.ip = some (0b10110#5 ++ reg) →
    (∀ v : Byte, s.buf.readByte (s.ip + 1) = some v →
      step s = .next (emitted s (.reg .narrow reg) (.imm v.toInt none) 2 (movLine (regName .narrow reg) (dec v.toInt)))) ∧
    (s.buf.size ≤ s.ip + 1 → step s = .next (raised s .outOfRange (s.ip + 1) (0b10110#5 ++ reg)))

/-- 42_mov_imm_to_reg.md R122. -/
def Obligations.MovR16Imm16Rule : Prop :=
  ∀ (s : State) (reg : Idx), s.status = some .scanning → s.buf.readByte s.ip = some (0b10111#5 ++ reg) →
    (∀ lo hi : Byte, s.buf.readByte (s.ip + 1) = some lo → s.buf.readByte (s.ip + 2) = some hi →
      step s = .next (emitted s (.reg .wide reg) (.imm (hi ++ lo).toInt none) 3
        (movLine (regName .wide reg) (dec (hi ++ lo).toInt)))) ∧
    (s.buf.size ≤ s.ip + 2 → step s = .next (raised s .outOfRange (s.ip + 1) (0b10111#5 ++ reg)))

/-- 43_mov_rm_reg.md R131: register mode, both directions, both widths. -/
def Obligations.MovRegRegRule : Prop :=
  ∀ (s : State) (d : BitVec 1) (w : Width) (reg rm : Idx), s.status = some .scanning →
    s.buf.readByte s.ip = some (0b100010#6 ++ d ++ w.bit) →
    (s.buf.readByte (s.ip + 1) = some (0b11#2 ++ reg ++ rm) →
      step s = .next (emittedByDirection s d (.reg w rm, regName w rm) (.reg w reg, regName w reg) 2)) ∧
    (s.buf.size ≤ s.ip + 1 → step s = .next (raised s .outOfRange (s.ip + 1) (0b100010#6 ++ d ++ w.bit)))

/-- 43_mov_rm_reg.md R132: memory with no displacement. -/
def Obligations.MovEaRegRule : Prop :=
  ∀ (s : State) (d : BitVec 1) (w : Width) (reg rm : Idx), s.status = some .scanning →
    s.buf.readByte s.ip = some (0b100010#6 ++ d ++ w.bit) →
    (rm ≠ 6 → s.buf.readByte (s.ip + 1) = some (0b00#2 ++ reg ++ rm) →
      ∃ e, eaName rm false = some e ∧
        step s = .next (emittedByDirection s d (.mem rm none, ascii "[" ++ e ++ ascii "]") (.reg w reg, regName w reg) 2)) ∧
    (s.buf.size ≤ s.ip + 1 → step s = .next (raised s .outOfRange (s.ip + 1) (0b100010#6 ++ d ++ w.bit)))

/-- 43_mov_rm_reg.md R133: direct address, regardless of Direction and Word. -/
def Obligations.MovDirectRegRule : Prop :=
  ∀ (s : State) (d : BitVec 1) (w : Width) (reg : Idx), s.status = some .scanning →
    s.buf.readByte s.ip = some (0b100010#6 ++ d ++ w.bit) →
    (∀ lo hi : Byte, s.buf.readByte (s.ip + 1) = some (0b00#2 ++ reg ++ 0b110#3) →
      s.buf.readByte (s.ip + 2) = some lo → s.buf.readByte (s.ip + 3) = some hi →
      step s = .next (emittedByDirection s d
        (.direct (hi ++ lo).toNat, ascii "[" ++ dec (hi ++ lo).toNat ++ ascii "]") (.reg w reg, regName w reg) 4)) ∧
    (s.buf.size ≤ s.ip + 1 → step s = .next (raised s .outOfRange (s.ip + 1) (0b100010#6 ++ d ++ w.bit))) ∧
    (s.buf.readByte (s.ip + 1) = some (0b00#2 ++ reg ++ 0b110#3) → s.buf.size ≤ s.ip + 3 →
      step s = .next (raised s .outOfRange (s.ip + 2) (0b100010#6 ++ d ++ w.bit)))

/-- 43_mov_rm_reg.md R134: memory with 8-bit displacement. The displacement's text is the spec's decision D5. -/
def Obligations.MovDisp8RegRule : Prop :=
  ∀ (s : State) (d : BitVec 1) (w : Width) (reg rm : Idx), s.status = some .scanning →
    s.buf.readByte s.ip = some (0b100010#6 ++ d ++ w.bit) →
    (∀ v : Byte, s.buf.readByte (s.ip + 1) = some (0b01#2 ++ reg ++ rm) → s.buf.readByte (s.ip + 2) = some v →
      ∃ m, memText rm (some v.toInt) = some m ∧
        step s = .next (emittedByDirection s d (.mem rm (some v.toInt), m) (.reg w reg, regName w reg) 3)) ∧
    (s.buf.size ≤ s.ip + 1 → step s = .next (raised s .outOfRange (s.ip + 1) (0b100010#6 ++ d ++ w.bit))) ∧
    (s.buf.readByte (s.ip + 1) = some (0b01#2 ++ reg ++ rm) → s.buf.size ≤ s.ip + 2 →
      step s = .next (raised s .outOfRange (s.ip + 2) (0b100010#6 ++ d ++ w.bit)))

/-- 43_mov_rm_reg.md R135: memory with 16-bit displacement. -/
def Obligations.MovDisp16RegRule : Prop :=
  ∀ (s : State) (d : BitVec 1) (w : Width) (reg rm : Idx), s.status = some .scanning →
    s.buf.readByte s.ip = some (0b100010#6 ++ d ++ w.bit) →
    (∀ lo hi : Byte, s.buf.readByte (s.ip + 1) = some (0b10#2 ++ reg ++ rm) →
      s.buf.readByte (s.ip + 2) = some lo → s.buf.readByte (s.ip + 3) = some hi →
      ∃ m, memText rm (some (hi ++ lo).toInt) = some m ∧
        step s = .next (emittedByDirection s d (.mem rm (some (hi ++ lo).toInt), m) (.reg w reg, regName w reg) 4)) ∧
    (s.buf.size ≤ s.ip + 1 → step s = .next (raised s .outOfRange (s.ip + 1) (0b100010#6 ++ d ++ w.bit))) ∧
    (s.buf.readByte (s.ip + 1) = some (0b10#2 ++ reg ++ rm) → s.buf.size ≤ s.ip + 3 →
      step s = .next (raised s .outOfRange (s.ip + 2) (0b100010#6 ++ d ++ w.bit)))

/-- 44_mov_imm_to_rm.md R151: register mode; `x` is the ignored Register field; no qualifier is printed (D9). The opcode
pattern of the family is the spec's decision D1. -/
def Obligations.MovRegImmRule : Prop :=
  ∀ (s : State) (w : Width) (x rm : Idx), s.status = some .scanning →
    s.buf.readByte s.ip = some (0b1100011#7 ++ w.bit) →
    (∀ v, s.buf.readByte (s.ip + 1) = some (0b11#2 ++ x ++ rm) → ImmAt s (s.ip + 2) w v →
      step s = .next (emitted s (.reg w rm) (.imm v none) (3 + w.toNat) (movLine (regName w rm) (dec v)))) ∧
    (s.buf.size ≤ s.ip + 1 → step s = .next (raised s .outOfRange (s.ip + 1) (0b1100011#7 ++ w.bit))) ∧
    (s.buf.readByte (s.ip + 1) = some (0b11#2 ++ x ++ rm) → s.buf.size ≤ s.ip + 2 + w.toNat →
      step s = .next (raised s .outOfRange (s.ip + 2) (0b1100011#7 ++ w.bit)))

/-- 44_mov_imm_to_rm.md R152: memory with no displacement. -/
def Obligations.MovEaImmRule : Prop :=
  ∀ (s : State) (w : Width) (x rm : Idx), s.status = some .scanning →
    s.buf.readByte s.ip = some (0b1100011#7 ++ w.bit) →
    (∀ v, rm ≠ 6 → s.buf.readByte (s.ip + 1) = some (0b00#2 ++ x ++ rm) → ImmAt s (s.ip + 2) w v →
      ∃ e, eaName rm false = some e ∧
        step s = .next (emitted s (.mem rm none) (.imm v (some w)) (3 + w.toNat)
          (movLine (ascii "[" ++ e ++ ascii "]") (sizeText w ++ dec v)))) ∧
    (s.buf.size ≤ s.ip + 1 → step s = .next (raised s .outOfRange (s.ip + 1) (0b1100011#7 ++ w.bit))) ∧
    (rm ≠ 6 → s.buf.readByte (s.ip + 1) = some (0b00#2 ++ x ++ rm) → s.buf.size ≤ s.ip + 2 + w.toNat →
      step s = .next (raised s .outOfRange (s.ip + 2) (0b1100011#7 ++ w.bit)))

/-- 44_mov_imm_to_rm.md R153: direct address. -/
def Obligations.MovDirectImmRule : Prop :=
  ∀ (s : State) (w : Width) (x : Idx), s.status = some .scanning →
    s.buf.readByte s.ip = some (0b1100011#7 ++ w.bit) →
    (∀ (lo hi : Byte) (v : Int), s.buf.readByte (s.ip + 1) = some (0b00#2 ++ x ++ 0b110#3) →
      s.buf.readByte (s.ip + 2) = some lo → s.buf.readByte (s.ip + 3) = some hi → ImmAt s (s.ip + 4) w v →
      step s = .next (emitted s (.direct (hi ++ lo).toNat) (.imm v (some w)) (5 + w.toNat)
        (movLine (ascii "[" ++ dec (hi ++ lo).toNat ++ ascii "]") (sizeText w ++ dec v)))) ∧
    (s.buf.size ≤ s.ip + 1 → step s = .next (raised s .outOfRange (s.ip + 1) (0b1100011#7 ++ w.bit))) ∧
    (s.buf.readByte (s.ip + 1) = some (0b00#2 ++ x ++ 0b110#3) → s.buf.size ≤ s.ip + 3 →
      step s = .next (raised s .outOfRange (s.ip + 2) (0b1100011#7 ++ w.bit))) ∧
    (s.buf.readByte (s.ip + 1) = some (0b00#2 ++ x ++ 0b110#3) → s.ip + 3 < s.buf.size →
      s.buf.size ≤ s.ip + 4 + w.toNat → step s = .next (raised s .outOfRange (s.ip + 4) (0b1100011#7 ++ w.bit)))

/-- 44_mov_imm_to_rm.md R154: memory with 8-bit displacement. -/
def Obligations.MovDisp8ImmRule : Prop :=
  ∀ (s : State) (w : Width) (x rm : Idx), s.status = some .scanning →
    s.buf.readByte s.ip = some (0b1100011#7 ++ w.bit) →
    (∀ (b : Byte) (v : Int), s.buf.readByte (s.ip + 1) = some (0b01#2 ++ x ++ rm) →
      s.buf.readByte (s.ip + 2) = some b → ImmAt s (s.ip + 3) w v →
      ∃ m, memText rm (some b.toInt) = some m ∧
        step s = .next (emitted s (.mem rm (some b.toInt)) (.imm v (some w)) (4 + w.toNat)
          (movLine m (sizeText w ++ dec v)))) ∧
    (s.buf.size ≤ s.ip + 1 → step s = .next (raised s .outOfRange (s.ip + 1) (0b1100011#7 ++ w.bit))) ∧
    (s.buf.readByte (s.ip + 1) = some (0b01#2 ++ x ++ rm) → s.buf.size ≤ s.ip + 2 →
      step s = .next (raised s .outOfRange (s.ip + 2) (0b1100011#7 ++ w.bit))) ∧
    (s.buf.readByte (s.ip + 1) = some (0b01#2 ++ x ++ rm) → s.ip + 2 < s.buf.size →
      s.buf.size ≤ s.ip + 3 + w.toNat → step s = .next (raised s .outOfRange (s.ip + 3) (0b1100011#7 ++ w.bit)))

/-- 44_mov_imm_to_rm.md R155: memory with 16-bit displacement. -/
def Obligations.MovDisp16ImmRule : Prop :=
  ∀ (s : State) (w : Width) (x rm : Idx), s.status = some .scanning →
    s.buf.readByte s.ip = some (0b1100011#7 ++ w.bit) →
    (∀ (lo hi : Byte) (v : Int), s.buf.readByte (s.ip + 1) = some (0b10#2 ++ x ++ rm) →
      s.buf.readByte (s.ip + 2) = some lo → s.buf.readByte (s.ip + 3) = some hi → ImmAt s (s.ip + 4) w v →
      ∃ m, memText rm (some (hi ++ lo).toInt) = some m ∧
        step s = .next (emitted s (.mem rm (some (hi ++ lo).toInt)) (.imm v (some w)) (5 + w.toNat)
          (movLine m (sizeText w ++ dec v)))) ∧
    (s.buf.size ≤ s.ip + 1 → step s = .next (raised s .outOfRange (s.ip + 1) (0b1100011#7 ++ w.bit))) ∧
    (s.buf.readByte (s.ip + 1) = some (0b10#2 ++ x ++ rm) → s.buf.size ≤ s.ip + 3 →
      step s = .next (raised s .outOfRange (s.ip + 2) (0b1100011#7 ++ w.bit))) ∧
    (s.buf.readByte (s.ip + 1) = some (0b10#2 ++ x ++ rm) → s.ip + 3 < s.buf.size →
      s.buf.size ≤ s.ip + 4 + w.toNat → step s = .next (raised s .outOfRange (s.ip + 4) (0b1100011#7 ++ w.bit)))

/-- 45_mov_accumulator.md R171: memory to accumulator. -/
def Obligations.MovAccAddrRule : Prop :=
  ∀ (s : State) (w : Width), s.status = some .scanning → s.buf.readByte s.ip = some (0b1010000#7 ++ w.bit) →
    (∀ lo hi : Byte, s.buf.readByte (s.ip + 1) = some lo → s.buf.readByte (s.ip + 2) = some hi →
      step s = .next (emitted s (.reg w 0) (.direct (hi ++ lo).toNat) 3
        (movLine (regName w 0) (ascii "[" ++ dec (hi ++ lo).toNat ++ ascii "]")))) ∧
    (s.buf.size ≤ s.ip + 2 → step s = .next (raised s .outOfRange (s.ip + 1) (0b1010000#7 ++ w.bit)))

/-- 45_mov_accumulator.md R172: accumulator to memory. The opcode pattern is the spec's decision D3. -/
def Obligations.MovAddrAccRule : Prop :=
  ∀ (s : State) (w : Width), s.status = some .scanning → s.buf.readByte s.ip = some (0b1010001#7 ++ w.bit) →
    (∀ lo hi : Byte, s.buf.readByte (s.ip + 1) = some lo → s.buf.readByte (s.ip + 2) = some hi →
      step s = .next (emitted s (.direct (hi ++ lo).toNat) (.reg w 0) 3
        (movLine (ascii "[" ++ dec (hi ++ lo).toNat ++ ascii "]") (regName w 0)))) ∧
    (s.buf.size ≤ s.ip + 2 → step s = .next (raised s .outOfRange (s.ip + 1) (0b1010001#7 ++ w.bit)))

/-- 40_opcode_classifier.md R93: an opcode byte in no family raises UnsupportedOpcode with `ip` and the byte, whatever
follows it; nothing is emitted and `ip` is not advanced. 230 of the 256 byte values are in this case. -/
def Obligations.UnsupportedOpcodeIsRaised : Prop :=
  (∀ (s : State) (b : Byte), s.status = some .scanning → s.buf.readByte s.ip = some b → classify b = none →
    step s = .next (raised s .unsupportedOpcode s.ip b)) ∧
  ((List.range 256).filter fun n => (classify (BitVec.ofNat 8 n)).isNone).length = 230

/-- 60_exceptions.md R196: a step that latches an error changes nothing else (`ip` keeps the failing instruction's offset,
`out` what earlier steps appended, the spec's decision D12), and the status becomes Failed. -/
def Obligations.RaiseLatchesTheErrorOnly : Prop :=
  ∀ (s t : State), s.err = none → step s = .next t → t.err ≠ none →
    ∃ k off b, t = raised s k off b ∧ t.status = some .failed

/-- 60_exceptions.md sections 1 and 2: the error a step latches is OutOfRange or UnsupportedOpcode, never InvalidMode
([derived] in R193), with the opcode byte, at `ip` or at a failing read's offset, which is `N` or `N - 1`. -/
def Obligations.LatchedErrorsAreExplained : Prop :=
  ∀ (s t : State) (e : ErrRecord), s.err = none → step s = .next t → t.err = some e →
    s.Explains e ∧ e.kind ≠ .invalidMode

/-- 46_decode_loop.md section 2: in `Done` and in `Failed` the state no longer changes. That the host's step answers the
same state there, where the spec enables no step, is the model's choice (log entry 4). -/
def Obligations.TerminalStatesDoNotChange : Prop :=
  ∀ s : State, s.ended → step s = .next s

/-- 46_decode_loop.md R181: a successful step adds the decoded length, 2 to 6, to `ip`, and the new `ip` is at most `N`; no
other step writes `ip`: one that raises leaves it, and so does one in `Done` or `Failed`. -/
def Obligations.SuccessfulStepAdvancesByTheLength : Prop :=
  ∀ s t : State, step s = .next t →
    (s.status = some .scanning → t.err = none →
      ∃ i, s.fetch = .ok i ∧ t.ip = s.ip + i.length ∧ 2 ≤ i.length ∧ i.length ≤ 6 ∧ t.ip ≤ s.buf.size) ∧
    (s.status ≠ some .scanning ∨ t.err ≠ none → t.ip = s.ip)

/-- Nothing is stuck in `Scanning`, where 93_implementation_defined.md part A gives every state one successor (R186). In `Done`
and `Failed` the spec enables no step (R183): that those states, too, have a next state is the model's choice
(log entry 4). -/
def Obligations.EveryRunStateHasANextState : Prop :=
  ∀ s : State, s.err ≠ none ∨ s.ip ≤ s.buf.size → ∃ t, step s = .next t

/-- In the states R23 gives no status, which no run reaches (R22), the step is the fault `ipPastEnd`: the model's choice
(log entry 5). -/
def Obligations.IpPastTheEndFaults : Prop :=
  ∀ s : State, s.err = none → s.buf.size < s.ip → step s = .fault .ipPastEnd

/-! ### What each instruction does -/

/-- Family 1 completes in every state (42_mov_imm_to_reg.md section 1). -/
def Obligations.ExecImmToRegAppends : Prop :=
  ∀ (s : State) (reg : Idx) (v : Byte) (u : Word),
    exec (.movR8Imm8 reg v) s =
      .next (emitted s (.reg .narrow reg) (.imm v.toInt none) 2 (movLine (regName .narrow reg) (dec v.toInt))) ∧
    exec (.movR16Imm16 reg u) s =
      .next (emitted s (.reg .wide reg) (.imm u.toInt none) 3 (movLine (regName .wide reg) (dec u.toInt)))

/-- Register mode and direct address of family 2, both directions, complete in every state
(43_mov_rm_reg.md section 2). -/
def Obligations.ExecRegisterAndDirectFormsAppend : Prop :=
  ∀ (s : State) (w : Width) (reg rm : Idx) (a : Word),
    exec (.movRRRegSrc w reg rm) s =
      .next (emitted s (.reg w rm) (.reg w reg) 2 (movLine (regName w rm) (regName w reg))) ∧
    exec (.movRRRegDst w reg rm) s =
      .next (emitted s (.reg w reg) (.reg w rm) 2 (movLine (regName w reg) (regName w rm))) ∧
    exec (.movAddrR w reg a) s =
      .next (emitted s (.direct a.toNat) (.reg w reg) 4
        (movLine (ascii "[" ++ dec a.toNat ++ ascii "]") (regName w reg))) ∧
    exec (.movRAddr w reg a) s =
      .next (emitted s (.reg w reg) (.direct a.toNat) 4
        (movLine (regName w reg) (ascii "[" ++ dec a.toNat ++ ascii "]")))

/-- The memory forms of family 2, both directions: with a displacement they complete in every state, without one for every
RegMem but 6, which is the direct address (43_mov_rm_reg.md section 2). -/
def Obligations.ExecMemoryFormsAppend : Prop :=
  ∀ (s : State) (w : Width) (reg rm : Idx) (b : Byte) (u : Word),
    (rm ≠ 6 → ∃ m, memText rm none = some m ∧
      exec (.movEaR w reg rm) s = .next (emitted s (.mem rm none) (.reg w reg) 2 (movLine m (regName w reg))) ∧
      exec (.movREa w reg rm) s = .next (emitted s (.reg w reg) (.mem rm none) 2 (movLine (regName w reg) m))) ∧
    (∃ m, memText rm (some b.toInt) = some m ∧
      exec (.movEaDisp8R w reg rm b) s =
        .next (emitted s (.mem rm (some b.toInt)) (.reg w reg) 3 (movLine m (regName w reg))) ∧
      exec (.movREaDisp8 w reg rm b) s =
        .next (emitted s (.reg w reg) (.mem rm (some b.toInt)) 3 (movLine (regName w reg) m))) ∧
    ∃ m, memText rm (some u.toInt) = some m ∧
      exec (.movEaDisp16R w reg rm u) s =
        .next (emitted s (.mem rm (some u.toInt)) (.reg w reg) 4 (movLine m (regName w reg))) ∧
      exec (.movREaDisp16 w reg rm u) s =
        .next (emitted s (.reg w reg) (.mem rm (some u.toInt)) 4 (movLine (regName w reg) m))

/-- Family 3, both widths (44_mov_imm_to_rm.md section 2): `v` is the immediate's signed value, `n` its size in bytes. The
Register field `x` has no effect. -/
def Obligations.ExecImmToRmAppends : Prop :=
  ∀ (s : State) (x rm : Idx) (a : Word) (b : Byte) (u : Word) (imm : Imm) (w : Width) (v : Int) (n : Nat),
    ((∃ c : Byte, imm = .imm8 c ∧ w = .narrow ∧ v = c.toInt ∧ n = 1) ∨
      (∃ c : Word, imm = .imm16 c ∧ w = .wide ∧ v = c.toInt ∧ n = 2)) →
    exec (.movRImm x rm imm) s =
      .next (emitted s (.reg w rm) (.imm v none) (2 + n) (movLine (regName w rm) (dec v))) ∧
    (rm ≠ 6 → ∃ m, memText rm none = some m ∧ exec (.movEaImm x rm imm) s =
      .next (emitted s (.mem rm none) (.imm v (some w)) (2 + n) (movLine m (sizeText w ++ dec v)))) ∧
    exec (.movAddrImm x a imm) s =
      .next (emitted s (.direct a.toNat) (.imm v (some w)) (4 + n)
        (movLine (ascii "[" ++ dec a.toNat ++ ascii "]") (sizeText w ++ dec v))) ∧
    (∃ m, memText rm (some b.toInt) = some m ∧ exec (.movEaDisp8Imm x rm b imm) s =
      .next (emitted s (.mem rm (some b.toInt)) (.imm v (some w)) (3 + n) (movLine m (sizeText w ++ dec v)))) ∧
    ∃ m, memText rm (some u.toInt) = some m ∧ exec (.movEaDisp16Imm x rm u imm) s =
      .next (emitted s (.mem rm (some u.toInt)) (.imm v (some w)) (4 + n) (movLine m (sizeText w ++ dec v)))

/-- The accumulator forms complete in every state (45_mov_accumulator.md section 1). -/
def Obligations.ExecAccumulatorFormsAppend : Prop :=
  ∀ (s : State) (w : Width) (a : Word),
    exec (.movAccAddr w a) s =
      .next (emitted s (.reg w 0) (.direct a.toNat) 3
        (movLine (regName w 0) (ascii "[" ++ dec a.toNat ++ ascii "]"))) ∧
    exec (.movAddrAcc w a) s =
      .next (emitted s (.direct a.toNat) (.reg w 0) 3
        (movLine (ascii "[" ++ dec a.toNat ++ ascii "]") (regName w 0)))

/-- Every well-formed instruction completes in every state; an ill-formed term, which no bytes decode to, is refused by
name: the model's choice (log entry 6). -/
def Obligations.ExecCompletesExactlyWhenWellFormed : Prop :=
  ∀ (i : Instr) (s : State),
    (WellFormed i = true → ∃ t, exec i s = .next t) ∧
    (WellFormed i = false → exec i s = .refused .directAddressAsExpression)

/-- The frame of every instruction: one element is appended to `out`, no earlier one is changed, no error is latched or
cleared, and no byte of the buffer changes (it stores nothing). -/
def Obligations.ExecFrame : Prop :=
  ∀ (i : Instr) (s t : State), exec i s = .next t →
    (∃ e, t.out = s.out ++ [e]) ∧ t.err = s.err ∧ t.buf.size = s.buf.size ∧
      ∀ a, t.buf.readByte a = s.buf.readByte a

/-- 10_state.md R25: `out` only grows, by one element per successful step, a record that starts at `ip` and its text with a
line feed, and by none per failed step; earlier elements stay (the spec's decision D12). -/
def Obligations.OutIsAppendOnly : Prop :=
  ∀ s t : State, s.status = some .scanning → step s = .next t →
    (t.err = none → ∃ r x, recordText r = some x ∧ r.start = s.ip ∧ t.out = s.out ++ [⟨r, x ++ [0x0A]⟩]) ∧
    (t.err ≠ none → t.out = s.out)

/-- 20_memory.md R50: at every point of a run a byte read gives the byte the loader placed. -/
def Obligations.LoadedBytesStayReadable : Prop :=
  ∀ (s t : State) (bs : List Byte) (k a : Nat), Host.Core.run Sys2Proof.core k (s.load bs) = .next t →
    t.buf.readByte a = bs[a]?

/-! ### Invariant, termination, reset -/

/-- Every step keeps the invariant of Sys2Proof/Safety.lean: the buffer canonical, `ip <= N`, the records of `out` covering
the bytes below `ip` without gap, each of them what decoding the buffer at its own offset gives, each line its text, and a
latched error explained by the bytes at `ip`. -/
def Obligations.StepKeepsTheInvariant : Prop :=
  ∀ s t : State, s.Inv → step s = .next t → t.Inv

/-- The invariant holds after reset and after every load. -/
def Obligations.ResetAndLoadMeetTheInvariant : Prop :=
  State.reset.Inv ∧ ∀ (s : State) (bs : List Byte), (s.load bs).Inv

/-- 46_decode_loop.md section 2: from every state with `ip <= N`, the run ends in `Done` or `Failed` after at most half the
remaining bytes, and one more, steps ([derived] in R185). The spec's run may be shorter than that number of the host's steps: that
the host's step answers the same state from its end on is the model's choice (log entry 4), and the statement rests on it. -/
def Obligations.RunEndsWithinHalfTheBuffer : Prop :=
  ∀ s : State, s.ip ≤ s.buf.size →
    ∃ t, Host.Core.run Sys2Proof.core ((s.buf.size - s.ip) / 2 + 1) s = .next t ∧ t.ended

/-- 46_decode_loop.md section 2: at every point of a run on a loaded buffer the lengths emitted sum to `ip`, so in `Done`
they sum to `N` and in `Failed` to the failing instruction's offset ([derived] in R184). -/
def Obligations.EmittedLengthsSumToIp : Prop :=
  ∀ (s t : State) (bs : List Byte) (k : Nat), Host.Core.run Sys2Proof.core k (s.load bs) = .next t →
    (t.out.map fun e => e.record.len).sum = t.ip ∧ contiguous 0 t.out t.ip ∧
      (t.status = some .done → t.ip = bs.length) ∧ (t.status = some .failed → t.ip < bs.length)

/-- 70_reset_and_hazards.md section 4: `out` read at any point of a run is the beginning of `out` at any later point. -/
def Obligations.EarlierOutputIsTheBeginning : Prop :=
  ∀ (s t u : State) (k j : Nat), Host.Core.run Sys2Proof.core k s = .next t →
    Host.Core.run Sys2Proof.core (k + j) s = .next u → ∃ more, u.out = t.out ++ more

/-- 10_state.md R31: reset, in any state, gives `ip = 0`, no error and an empty `out`, does not touch the buffer, and the
status is Scanning when `N > 0` and Done when `N = 0`. That `err` and `out` are cleared is the spec's decision D22. -/
def Obligations.ResetStartsANewRun : Prop :=
  ∀ s : State, s.applyReset = ⟨0, none, [], s.buf⟩ ∧
    (0 < s.buf.size → s.applyReset.status = some .scanning) ∧
    (s.buf.size = 0 → s.applyReset.status = some .done) ∧
    State.reset.applyReset = State.reset

/-- 10_state.md R23: the status as a function of the state. `Failed` is the spec's decision D11. -/
def Obligations.StatusFollowsTheState : Prop :=
  ∀ s : State,
    (s.err ≠ none → s.status = some .failed) ∧
    (s.err = none → s.ip < s.buf.size → s.status = some .scanning) ∧
    (s.err = none → s.ip = s.buf.size → s.status = some .done)

/-- 10_state.md section 3: the fields of the STATUS view; the codes are the spec's own choice (D16). The last branch, phase 3 with
no error and `ip` past `N`, is the model's choice for states R23 gives no status (log entry 5): R26 says that 3 is never
read, and no run reaches those states (R22). -/
def Obligations.StatusRegisterView : Prop :=
  ∀ s : State,
    (s.statusReg.extractLsb' 0 2).toNat =
      (if s.err ≠ none then 2 else if s.ip < s.buf.size then 0 else if s.ip = s.buf.size then 1 else 3) ∧
    (s.err = none → s.statusReg.extractLsb' 2 2 = 0 ∧ s.statusReg.extractLsb' 4 8 = 0) ∧
    ∀ e, s.err = some e → s.statusReg.extractLsb' 4 8 = e.byte ∧
      (s.statusReg.extractLsb' 2 2).toNat =
        (match e.kind with | .outOfRange => 1 | .unsupportedOpcode => 2 | .invalidMode => 3)

/-! ### Properties across instructions -/

/-- 43_mov_rm_reg.md section 3: with the Direction bit of a family 2 opcode byte flipped and the same following bytes, the
same error is found or the two operands are exchanged and nothing else ([derived] in R136). -/
def Obligations.DirectionBitSwapsTheOperands : Prop :=
  ∀ (b0 : Byte) (rest : List Byte) (s : State), classify b0 = some .rmReg →
    (∀ r, decodeBytes (b0 :: rest) = .error r → decodeBytes ((b0 ^^^ 2) :: rest) = .error r) ∧
    ∀ i, decodeBytes (b0 :: rest) = .ok i → ∃ j, decodeBytes ((b0 ^^^ 2) :: rest) = .ok j ∧
      ∃ (a b : Operand) (x y : Text) (n : Nat),
        operandText a = some x ∧ operandText b = some y ∧
        exec i s = .next (emitted s a b n (movLine x y)) ∧ exec j s = .next (emitted s b a n (movLine y x))

/-- 44_mov_imm_to_rm.md section 3: in family 3 the Register field of the mod byte has no effect on the outcome of the step
([derived] in R156). -/
def Obligations.RegisterFieldOfFamilyThreeIsIgnored : Prop :=
  ∀ (b0 b1 c1 : Byte) (rest : List Byte), classify b0 = some .immToRm → b1 &&& 0xC7 = c1 &&& 0xC7 →
    (∀ i, decodeBytes (b0 :: b1 :: rest) = .ok i →
      ∃ j, decodeBytes (b0 :: c1 :: rest) = .ok j ∧ ∀ s, exec i s = exec j s) ∧
    ∀ r, decodeBytes (b0 :: b1 :: rest) = .error r → decodeBytes (b0 :: c1 :: rest) = .error r

/-- 41_name_tables.md R100: the sixteen names in order of `8 * w + idx`; they are distinct pairs of letters (R101). That the list order is the index order is the spec's decision D25. -/
def Obligations.RegisterNamesAreTheSixteen : Prop :=
  ([Width.narrow, Width.wide].flatMap fun w => (List.range 8).map fun k => regName w (BitVec.ofNat 3 k)) =
    ["al", "cl", "dl", "bl", "ah", "ch", "dh", "bh", "ax", "cx", "dx", "bx", "sp", "bp", "si", "di"].map ascii ∧
  (∀ (w v : Width) (i j : Idx), regName w i = regName v j → w = v ∧ i = j) ∧
  ∀ (w : Width) (i : Idx), (regName w i).length = 2

/-- 41_name_tables.md R106 over the table of R103: the text of a memory operand. The joining sign and `+0` are the spec's
decision D5. -/
def Obligations.MemoryOperandText : Prop :=
  ∀ (rm : Idx) (e : Text), (["bx+si", "bx+di", "bp+si", "bp+di", "si", "di", "bp", "bx"].map ascii)[rm.toNat]? = some e →
    (rm ≠ 6 → memText rm none = some (ascii "[" ++ e ++ ascii "]")) ∧
    ∀ d : Int, (0 ≤ d → memText rm (some d) = some (ascii "[" ++ e ++ ascii "+" ++ dec d ++ ascii "]")) ∧
      (d < 0 → memText rm (some d) = some (ascii "[" ++ e ++ ascii "-" ++ dec (-d) ++ ascii "]"))

/-- 41_name_tables.md R108: `Dec` is decimal: digits only, no leading zero, the number they stand for, a minus sign before a
negative number, 1 to 6 characters over the values printed. -/
def Obligations.DecIsDecimal : Prop :=
  dec 0 = ascii "0" ∧
  (∀ n : Nat, 0 < n → digitsValue (dec n) = n ∧ (∀ c ∈ dec n, 0x30 ≤ c.toNat ∧ c.toNat ≤ 0x39) ∧
    (dec n).head? ≠ some 0x30 ∧ dec n ≠ [] ∧ dec (-(n : Int)) = ascii "-" ++ dec n) ∧
  ∀ n : Int, -32768 ≤ n → n ≤ 65535 → 1 ≤ (dec n).length ∧ (dec n).length ≤ 6

/-- 30_encoding.md section 5: every line has 10 to 31 characters, its line feed included, and both are attained
([derived] in R83). -/
def Obligations.LineLengthBounds : Prop :=
  (∀ (i : Instr) (s t : State), exec i s = .next t →
    ∃ e, t.out = s.out ++ [e] ∧ 10 ≤ e.line.length ∧ e.line.length ≤ 31) ∧
  (∃ (i j : Instr) (s t u : State) (e f : OutElem), exec i s = .next t ∧ t.out = [e] ∧ e.line.length = 10 ∧
    exec j s = .next u ∧ u.out = [f] ∧ f.line.length = 31)

/-- 42_mov_imm_to_reg.md section 3: two different instructions of family 1 print different lines ([derived] in R123). -/
def Obligations.ImmToRegLinesDiffer : Prop :=
  ∀ (i j : Instr) (s t u : State) (e f : OutElem),
    classify ((encode i).headD 0) = some .immToReg → classify ((encode j).headD 0) = some .immToReg → i ≠ j →
    exec i s = .next t → exec j s = .next u → t.out = s.out ++ [e] → u.out = s.out ++ [f] → e.line ≠ f.line

/-- 30_encoding.md section 5: encodings of one operation print alike, whatever else differs: register to register in both
directions, family 1 and family 3 in register mode, the accumulator forms and direct addresses with register 0
([derived] in R82). -/
def Obligations.EquivalentEncodingsPrintAlike : Prop :=
  ∀ (w : Width) (reg rm x : Idx) (a : Word) (b : Byte) (i j : Instr) (s : State),
    (i, j) ∈ [(Instr.movRRRegSrc w reg rm, Instr.movRRRegDst w rm reg), (.movR8Imm8 reg b, .movRImm x reg (.imm8 b)),
      (.movR16Imm16 reg a, .movRImm x reg (.imm16 a)), (.movAccAddr w a, .movRAddr w 0 a),
      (.movAddrAcc w a, .movAddrR w 0 a)] →
    ∃ (d o : Operand) (n m : Nat) (line : Text),
      exec i s = .next (emitted s d o n line) ∧ exec j s = .next (emitted s d o m line)

/-- 41_name_tables.md section 2: `addressing_mode_formatter`, given the ports of a form, answers the text of the operand the
decoder records for it, 2 to 13 characters ([derived] in R110; the ports are the spec's own, D16). -/
def Obligations.FormatterMatchesTheRecordedOperand : Prop :=
  ∀ (w : Width) (m : RmForm), m ≠ .expr 6 →
    ∃ t, operandText (rmOperand w m) = some t ∧
      addressingModeFormatter (formatterPorts m).1 (formatterPorts m).2.1 w (formatterPorts m).2.2 = some t ∧
      2 ≤ t.length ∧ t.length ≤ 13
end

