-- ==== Sys2Proof/Laws/State.lean ====
section
/-! SUPPORT. Sys2Proof/Laws/State.lean: one lemma per field per update of the state, all true by rfl. -/

namespace Sys2Proof.Machine

@[simp] theorem State.raise_ip (s : State) (e : ErrRecord) : (s.raise e).ip = s.ip := rfl
@[simp] theorem State.raise_err (s : State) (e : ErrRecord) : (s.raise e).err = some e := rfl
@[simp] theorem State.raise_out (s : State) (e : ErrRecord) : (s.raise e).out = s.out := rfl
@[simp] theorem State.raise_buf (s : State) (e : ErrRecord) : (s.raise e).buf = s.buf := rfl

@[simp] theorem State.emit_ip (s : State) (r : Record) (t : Text) : (s.emit r t).ip = s.ip := rfl
@[simp] theorem State.emit_err (s : State) (r : Record) (t : Text) : (s.emit r t).err = s.err := rfl
@[simp] theorem State.emit_out (s : State) (r : Record) (t : Text) :
    (s.emit r t).out = s.out ++ [⟨r, t ++ [lineFeed]⟩] := rfl
@[simp] theorem State.emit_buf (s : State) (r : Record) (t : Text) : (s.emit r t).buf = s.buf := rfl

@[simp] theorem State.advance_ip (s : State) (n : Nat) : (s.advance n).ip = s.ip + n := rfl
@[simp] theorem State.advance_err (s : State) (n : Nat) : (s.advance n).err = s.err := rfl
@[simp] theorem State.advance_out (s : State) (n : Nat) : (s.advance n).out = s.out := rfl
@[simp] theorem State.advance_buf (s : State) (n : Nat) : (s.advance n).buf = s.buf := rfl

@[simp] theorem State.applyReset_ip (s : State) : s.applyReset.ip = 0 := rfl
@[simp] theorem State.applyReset_err (s : State) : s.applyReset.err = none := rfl
@[simp] theorem State.applyReset_out (s : State) : s.applyReset.out = [] := rfl
@[simp] theorem State.applyReset_buf (s : State) : s.applyReset.buf = s.buf := rfl

@[simp] theorem State.load_ip (s : State) (bs : List Byte) : (s.load bs).ip = 0 := rfl
@[simp] theorem State.load_err (s : State) (bs : List Byte) : (s.load bs).err = none := rfl
@[simp] theorem State.load_out (s : State) (bs : List Byte) : (s.load bs).out = [] := rfl
@[simp] theorem State.load_buf (s : State) (bs : List Byte) : (s.load bs).buf = Memory.ofBytes bs := rfl

@[simp] theorem State.withFetchWord_ip (s : State) (n w : Nat) : (s.withFetchWord n w).ip = s.ip := rfl
@[simp] theorem State.withFetchWord_err (s : State) (n w : Nat) : (s.withFetchWord n w).err = none := rfl
@[simp] theorem State.withFetchWord_out (s : State) (n w : Nat) : (s.withFetchWord n w).out = s.out := rfl
@[simp] theorem State.withFetchWord_buf (s : State) (n w : Nat) :
    (s.withFetchWord n w).buf = s.buf.pokeBytes s.ip (tableBytes n w) := rfl

/-- The reader makes the machine's `ReadByte`. -/
@[simp] theorem State.reader_byte (s : State) (k : Nat) : s.reader.byte k = s.buf.readByte (s.ip + k) := rfl

/-- The reader makes the machine's `ReadWord`. -/
@[simp] theorem State.reader_word (s : State) (k : Nat) : s.reader.word k = s.buf.readWord (s.ip + k) := rfl

/-- `Failed` exactly when an error is latched. -/
theorem State.status_failed_iff (s : State) : s.status = some .failed ↔ s.err ≠ none := by
  unfold State.status; split_ifs <;> simp_all

/-- `Scanning` exactly when no error is latched and bytes remain. -/
theorem State.status_scanning_iff (s : State) : s.status = some .scanning ↔ s.err = none ∧ s.ip < s.buf.size := by
  unfold State.status; split_ifs <;> simp_all

/-- `Done` exactly when no error is latched and `ip` is the buffer's length. -/
theorem State.status_done_iff (s : State) : s.status = some .done ↔ s.err = none ∧ s.ip = s.buf.size := by
  unfold State.status; split_ifs <;> (simp_all; try omega)

end Sys2Proof.Machine
end

