-- ==== Sys2Proof/Laws/Memory.lean ====
section
/-! SUPPORT. Sys2Proof/Laws/Memory.lean: the byte buffer: every operation keeps the canonical form, and a read after a
placed byte gives that byte, at every other offset what it gave before. -/

namespace Sys2Proof.Machine

/-- The reset buffer is canonical. -/
@[simp] theorem Memory.reset_wf : State.reset.buf.wf = true := rfl

/-- A lower bound may be lowered and the size raised. -/
theorem Memory.cellsWf_mono {n n' lo lo' : Nat} {cs : List Host.Cell} (h : Memory.cellsWf n lo cs = true)
    (hn : n ≤ n') (hlo : lo' ≤ lo) : Memory.cellsWf n' lo' cs = true := by
  induction cs generalizing lo lo' with
  | nil => rfl
  | cons c cs ih =>
    obtain ⟨k, v⟩ := c
    simp only [Memory.cellsWf, Bool.and_eq_true, decide_eq_true_eq] at h ⊢
    exact ⟨⟨⟨by omega, by omega⟩, h.1.2⟩, ih h.2 le_rfl⟩

/-- An offset below a canonical list's bound is not listed. -/
theorem Memory.lookup_of_lt {n lo a : Nat} {cs : List Host.Cell} (h : Memory.cellsWf n lo cs = true) (ha : a < lo) :
    Memory.lookup cs a = Memory.unlisted := by
  induction cs generalizing lo with
  | nil => rfl
  | cons c cs ih =>
    obtain ⟨k, v⟩ := c
    simp only [Memory.cellsWf, Bool.and_eq_true, decide_eq_true_eq] at h
    rw [Memory.lookup, if_neg (by omega), ih h.2 (by omega)]

/-- Placing a byte keeps the cells canonical. -/
theorem Memory.pokeCells_wf {n lo a : Nat} {v : Byte} {cs : List Host.Cell} (h : Memory.cellsWf n lo cs = true)
    (hlo : lo ≤ a) (ha : a < n) : Memory.cellsWf n lo (Memory.pokeCells a v cs) = true := by
  induction cs generalizing lo with
  | nil => unfold Memory.pokeCells; split <;> simp_all [Memory.cellsWf]
  | cons c cs ih =>
    obtain ⟨k, u⟩ := c
    simp only [Memory.cellsWf, Bool.and_eq_true, decide_eq_true_eq] at h
    unfold Memory.pokeCells
    split
    · split
      · simp_all [Memory.cellsWf]
      · simp_all [Memory.cellsWf]
    · split
      · split
        · exact Memory.cellsWf_mono h.2 le_rfl (by omega)
        · simp_all [Memory.cellsWf]
      · simp only [Memory.cellsWf, Bool.and_eq_true, decide_eq_true_eq]
        exact ⟨h.1, ih h.2 (by omega)⟩

/-- Placing a byte keeps the canonical form. -/
theorem Memory.poke_wf {m : Memory} (h : m.wf = true) (a : Nat) (v : Byte) : (m.poke a v).wf = true :=
  Memory.pokeCells_wf (Memory.cellsWf_mono h (le_max_left _ _) le_rfl) (Nat.zero_le _) (by simp [Memory.poke])

/-- Placing bytes keeps the canonical form. -/
theorem Memory.pokeBytes_wf {m : Memory} (h : m.wf = true) (a : Nat) (bs : List Byte) :
    (m.pokeBytes a bs).wf = true := by
  induction bs generalizing m a with
  | nil => exact h
  | cons b bs ih => exact ih (Memory.poke_wf h a b) (a + 1)

/-- A loaded buffer is canonical. -/
theorem Memory.ofBytes_wf (bs : List Byte) : (Memory.ofBytes bs).wf = true := Memory.pokeBytes_wf rfl 0 bs

/-- Reading the cells after placing a byte. -/
theorem Memory.lookup_pokeCells {n lo a : Nat} {v : Byte} {cs : List Host.Cell}
    (h : Memory.cellsWf n lo cs = true) (b : Nat) :
    Memory.lookup (Memory.pokeCells a v cs) b = if b = a then v else Memory.lookup cs b := by
  induction cs generalizing lo with
  | nil =>
    unfold Memory.pokeCells
    by_cases hb : b = a
    · subst hb; split <;> simp_all [Memory.lookup]
    · split
      · rfl
      · exact if_neg (Ne.symm hb)
  | cons c cs ih =>
    obtain ⟨k, u⟩ := c
    simp only [Memory.cellsWf, Bool.and_eq_true, decide_eq_true_eq] at h
    have below : ∀ c, c < k + 1 → Memory.lookup cs c = Memory.unlisted := fun c => Memory.lookup_of_lt h.2
    unfold Memory.pokeCells
    split
    · split
      · by_cases hb : b = a
        · subst hb; rw [if_pos rfl, Memory.lookup, if_neg (by omega), below b (by omega)]; simp_all
        · rw [if_neg hb]
      · by_cases hb : b = a
        · subst hb; simp [Memory.lookup]
        · rw [if_neg hb, Memory.lookup, if_neg (by omega)]
    · split
      · rename_i hak; subst hak
        split
        · by_cases hb : b = a
          · subst hb; rw [if_pos rfl, below b (by omega)]; simp_all
          · rw [if_neg hb, Memory.lookup, if_neg (by omega)]
        · by_cases hb : b = a
          · subst hb; simp [Memory.lookup]
          · rw [if_neg hb, Memory.lookup, Memory.lookup, if_neg (by omega), if_neg (by omega)]
      · rw [Memory.lookup, Memory.lookup, ih h.2]
        by_cases hb : b = a
        · subst hb; rw [if_neg (by omega), if_pos rfl, if_pos rfl]
        · rw [if_neg hb, if_neg hb]

/-- The buffer's length after placing a byte. -/
@[simp] theorem Memory.poke_size (m : Memory) (a : Nat) (v : Byte) : (m.poke a v).size = max m.size (a + 1) := rfl

/-- What `ReadByte` answers after a byte is placed, at every offset the buffer has. -/
theorem Memory.readByte_poke {m : Memory} (h : m.wf = true) (a b : Nat) (v : Byte) (hb : b < max m.size (a + 1)) :
    (m.poke a v).readByte b = some (if b = a then v else Memory.lookup m.cells b) := by
  rw [Memory.readByte, Memory.poke_size, if_pos hb]
  exact congrArg some (Memory.lookup_pokeCells h b)

/-- `ReadByte` succeeds exactly below `N` (R43). -/
theorem Memory.readByte_isSome_iff (m : Memory) (a : Nat) : (m.readByte a).isSome ↔ a < m.size := by
  unfold Memory.readByte; split <;> simp_all

/-- `ReadByte` below `N` is the listed byte. -/
theorem Memory.readByte_of_lt {m : Memory} {a : Nat} (h : a < m.size) :
    m.readByte a = some (Memory.lookup m.cells a) := if_pos h

/-- `ReadByte` past the end fails. -/
theorem Memory.readByte_of_ge {m : Memory} {a : Nat} (h : m.size ≤ a) : m.readByte a = none := if_neg (by omega)

/-- A byte read tells the offset is below `N`. -/
theorem Memory.readByte_eq_some_iff {m : Memory} {a : Nat} {v : Byte} :
    m.readByte a = some v ↔ a < m.size ∧ Memory.lookup m.cells a = v := by
  unfold Memory.readByte; split <;> simp_all

/-- `ReadWord` is the two bytes, the lower offset less significant, exactly when both exist (R44, R47). -/
theorem Memory.readWord_eq_some_iff {m : Memory} {a : Nat} {w : Word} :
    m.readWord a = some w ↔ ∃ lo hi, m.readByte a = some lo ∧ m.readByte (a + 1) = some hi ∧ w = leWord lo hi := by
  unfold Memory.readWord
  split
  · rename_i h
    rw [Memory.readByte_of_lt h, Memory.readByte_of_lt (by omega)]
    simp [eq_comm]
  · rename_i h
    rw [Memory.readByte_of_ge (a := a + 1) (by omega)]
    simp

/-- `ReadWord` fails as a whole when its high byte does not exist (R44). -/
theorem Memory.readWord_of_ge {m : Memory} {a : Nat} (h : m.size ≤ a + 1) : m.readWord a = none := if_neg (by omega)

/-- Bytes placed from the buffer's end on: below it nothing changes, from it on the placed bytes are read, and the length
grows by them. -/
theorem Memory.pokeBytes_end (bs : List Byte) : ∀ {m : Memory}, m.wf = true →
    (m.pokeBytes m.size bs).size = m.size + bs.length ∧
      ∀ b, (m.pokeBytes m.size bs).readByte b = if b < m.size then m.readByte b else bs[b - m.size]? := by
  induction bs with
  | nil =>
    intro m h
    refine ⟨rfl, fun b => ?_⟩
    show m.readByte b = _
    split
    · rfl
    · rw [List.getElem?_nil]; exact Memory.readByte_of_ge (by omega)
  | cons v bs ih =>
    intro m h
    have hsize : (m.poke m.size v).size = m.size + 1 := by rw [Memory.poke_size]; omega
    have := ih (Memory.poke_wf h m.size v)
    rw [hsize] at this
    refine ⟨?_, fun b => ?_⟩
    · show ((m.poke m.size v).pokeBytes (m.size + 1) bs).size = _
      rw [this.1, List.length_cons]; omega
    · show ((m.poke m.size v).pokeBytes (m.size + 1) bs).readByte b = _
      rw [this.2 b]
      split
      · rw [Memory.readByte_poke h _ _ _ (by omega)]
        split
        · subst b; simp
        · rw [if_pos (by omega), Memory.readByte_of_lt (by omega)]
      · rw [if_neg (by omega), show b - m.size = (b - (m.size + 1)) + 1 by omega, List.getElem?_cons_succ]

end Sys2Proof.Machine
end

