-- ==== Sys2Proof/Laws/Decode.lean ====
section
/-! SUPPORT. Sys2Proof/Laws/Decode.lean: the fields of the bytes the encoder writes, the classifier on each family's opcode
bytes, and one lemma per read of the decoder. -/

namespace Sys2Proof

/-! ### Fields and byte order -/

@[simp] theorem lowField_modByteOf (m : BitVec 2) (r x : Idx) : lowField (modByteOf m r x) = x := by
  revert m r x; decide

@[simp] theorem regField_modByteOf (m : BitVec 2) (r x : Idx) : regField (modByteOf m r x) = r := by
  revert m r x; decide

@[simp] theorem modeField_modByteOf (m : BitVec 2) (r x : Idx) : modeField (modByteOf m r x) = m.toNat := by
  revert m r x; decide

/-- A mod byte is its three fields. -/
theorem modByteOf_fields (b : Byte) : modByteOf (BitVec.ofNat 2 (modeField b)) (regField b) (lowField b) = b := by
  revert b; decide

/-- Mode has four values (60_exceptions.md R193). -/
theorem modeField_lt (b : Byte) : modeField b < 4 := (b.extractLsb' 6 2).isLt

@[simp] theorem leWord_loByte_hiByte (w : Word) : leWord (loByte w) (hiByte w) = w := by
  unfold leWord loByte hiByte
  apply BitVec.eq_of_getLsbD_eq
  intro i hi
  rw [BitVec.getLsbD_append]
  split
  · simp_all
  · rw [BitVec.getLsbD_extractLsb']; simp; grind

@[simp] theorem loByte_leWord (lo hi : Byte) : loByte (leWord lo hi) = lo := by
  unfold leWord loByte
  apply BitVec.eq_of_getLsbD_eq
  intro i hi
  rw [BitVec.getLsbD_extractLsb', BitVec.getLsbD_append]; simp [hi]

@[simp] theorem hiByte_leWord (lo hi : Byte) : hiByte (leWord lo hi) = hi := by
  unfold leWord hiByte
  apply BitVec.eq_of_getLsbD_eq
  intro i hi
  rw [BitVec.getLsbD_extractLsb', BitVec.getLsbD_append]; simp [hi]

/-! ### Opcode bytes: the classifier and the fields of each family's -/

@[simp] theorem classify_opImmToReg (w : Width) (reg : Idx) : classify (opImmToReg w reg) = some .immToReg := by
  cases w <;> revert reg <;> decide

@[simp] theorem classify_opRmReg (d : BitVec 1) (w : Width) : classify (opRmReg d w) = some .rmReg := by
  cases w <;> revert d <;> decide

@[simp] theorem classify_opImmToRm (w : Width) : classify (opImmToRm w) = some .immToRm := by cases w <;> decide

@[simp] theorem classify_opMemToAcc (w : Width) : classify (opMemToAcc w) = some .memToAcc := by cases w <;> decide

@[simp] theorem classify_opAccToMem (w : Width) : classify (opAccToMem w) = some .accToMem := by cases w <;> decide

@[simp] theorem width_opImmToReg (w : Width) (reg : Idx) : immToRegWidth (opImmToReg w reg) = w := by
  cases w <;> revert reg <;> decide

@[simp] theorem lowField_opImmToReg (w : Width) (reg : Idx) : lowField (opImmToReg w reg) = reg := by
  cases w <;> revert reg <;> decide

@[simp] theorem width_opRmReg (d : BitVec 1) (w : Width) : lowWidth (opRmReg d w) = w := by
  cases w <;> revert d <;> decide

@[simp] theorem dir_opRmReg (d : BitVec 1) (w : Width) : directionField (opRmReg d w) = (d == 1) := by
  cases w <;> revert d <;> decide

@[simp] theorem width_opImmToRm (w : Width) : lowWidth (opImmToRm w) = w := by cases w <;> decide

@[simp] theorem width_opMemToAcc (w : Width) : lowWidth (opMemToAcc w) = w := by cases w <;> decide

@[simp] theorem width_opAccToMem (w : Width) : lowWidth (opAccToMem w) = w := by cases w <;> decide

/-- A byte of family 1 is rebuilt from its fields. -/
theorem opImmToReg_of_classify :
    ∀ b, classify b = some .immToReg → opImmToReg (immToRegWidth b) (lowField b) = b := by decide

/-- A byte of family 2 is rebuilt from its fields. -/
theorem opRmReg_of_classify :
    ∀ b, classify b = some .rmReg → opRmReg (BitVec.ofBool (directionField b)) (lowWidth b) = b := by decide

/-- A byte of family 3 is rebuilt from its Word bit. -/
theorem opImmToRm_of_classify : ∀ b, classify b = some .immToRm → opImmToRm (lowWidth b) = b := by decide

/-- A byte of family 4 is rebuilt from its Word bit. -/
theorem opMemToAcc_of_classify : ∀ b, classify b = some .memToAcc → opMemToAcc (lowWidth b) = b := by
  decide

/-- A byte of family 5 is rebuilt from its Word bit. -/
theorem opAccToMem_of_classify : ∀ b, classify b = some .accToMem → opAccToMem (lowWidth b) = b := by
  decide

/-! ### Reads -/

theorem Reader.readByte_some {rd : Reader} {k : Nat} {b : Byte} (h : rd.byte k = some b) : rd.readByte k = .ok b := by
  simp [Reader.readByte, h]

theorem Reader.readByte_none {rd : Reader} {k : Nat} (h : rd.byte k = none) :
    rd.readByte k = .error (.outOfRange k) := by
  simp [Reader.readByte, h]

theorem Reader.readWord_some {rd : Reader} {k : Nat} {w : Word} (h : rd.word k = some w) : rd.readWord k = .ok w := by
  simp [Reader.readWord, h]

theorem Reader.readWord_none {rd : Reader} {k : Nat} (h : rd.word k = none) :
    rd.readWord k = .error (.outOfRange k) := by
  simp [Reader.readWord, h]

/-- Everything a byte read can answer. -/
theorem Reader.readByte_cases (rd : Reader) (k : Nat) :
    (∃ b, rd.byte k = some b ∧ rd.readByte k = .ok b) ∨ (rd.byte k = none ∧ rd.readByte k = .error (.outOfRange k)) := by
  unfold Reader.readByte; cases rd.byte k <;> simp

/-- Everything a word read can answer. -/
theorem Reader.readWord_cases (rd : Reader) (k : Nat) :
    (∃ w, rd.word k = some w ∧ rd.readWord k = .ok w) ∨ (rd.word k = none ∧ rd.readWord k = .error (.outOfRange k)) := by
  unfold Reader.readWord; cases rd.word k <;> simp

/-- An immediate read of width `w` gives an immediate of that width. -/
theorem Reader.readImm_width {rd : Reader} {w : Width} {k : Nat} {i : Imm} (h : rd.readImm w k = .ok i) :
    i.width = w := by
  unfold Reader.readImm at h
  cases w
  · obtain ⟨b, -, e⟩ | ⟨-, e⟩ := rd.readByte_cases k <;> simp [e, Except.map] at h
    subst h; rfl
  · obtain ⟨b, -, e⟩ | ⟨-, e⟩ := rd.readWord_cases k <;> simp [e, Except.map] at h
    subst h; rfl

@[simp] theorem listReader_byte (bs : List Byte) (k : Nat) : (listReader bs).byte k = bs[k]? := rfl

/-- A word of the list reader is two bytes of the list, the lower offset less significant. -/
theorem listReader_word {bs : List Byte} {k : Nat} {lo hi : Byte} (hlo : bs[k]? = some lo) (hhi : bs[k + 1]? = some hi) :
    (listReader bs).word k = some (leWord lo hi) := by
  obtain ⟨h, rfl⟩ := List.getElem?_eq_some_iff.mp hhi
  obtain ⟨_, rfl⟩ := List.getElem?_eq_some_iff.mp hlo
  simp only [listReader, if_pos h]
  rw [List.getD_eq_getElem _ _ (by omega), List.getD_eq_getElem _ _ h]

/-- A word read of the list reader that succeeds gives its two bytes. -/
theorem listReader_word_some {bs : List Byte} {k : Nat} {w : Word} (h : (listReader bs).word k = some w) :
    bs[k]? = some (loByte w) ∧ bs[k + 1]? = some (hiByte w) := by
  simp only [listReader] at h
  split at h
  · rename_i hk
    rw [List.getD_eq_getElem _ _ (by omega), List.getD_eq_getElem _ _ hk] at h
    obtain rfl := Option.some.inj h
    simp [hk, show k < bs.length by omega]
  · cases h

end Sys2Proof
end

