-- ==== Sys2Proof/Laws/Exec.lean ====
section
/-! SUPPORT. Sys2Proof/Laws/Exec.lean: exec said once for every instruction, and everything its shared operation, `step` and
`fetch` can do. -/

namespace Sys2Proof.Machine

/-- The destination operand of an instruction's record. -/
def destOf : Instr → Operand
  | .movR8Imm8 reg _ => .reg .narrow reg
  | .movR16Imm16 reg _ => .reg .wide reg
  | .movRRRegSrc w _ rm => rmOperand w (.register rm)
  | .movEaR w _ rm => rmOperand w (.expr rm)
  | .movAddrR w _ a => rmOperand w (.direct a)
  | .movEaDisp8R w _ rm d => rmOperand w (.disp8 rm d)
  | .movEaDisp16R w _ rm d => rmOperand w (.disp16 rm d)
  | .movRRRegDst w reg _ => .reg w reg
  | .movREa w reg _ => .reg w reg
  | .movRAddr w reg _ => .reg w reg
  | .movREaDisp8 w reg _ _ => .reg w reg
  | .movREaDisp16 w reg _ _ => .reg w reg
  | .movRImm _ rm i => rmOperand i.width (.register rm)
  | .movEaImm _ rm i => rmOperand i.width (.expr rm)
  | .movAddrImm _ a i => rmOperand i.width (.direct a)
  | .movEaDisp8Imm _ rm d i => rmOperand i.width (.disp8 rm d)
  | .movEaDisp16Imm _ rm d i => rmOperand i.width (.disp16 rm d)
  | .movAccAddr w _ => accumulator w
  | .movAddrAcc _ a => .direct (unsigned16 a)

/-- The source operand of an instruction's record. -/
def srcOf : Instr → Operand
  | .movR8Imm8 _ v => .imm (immValue (.imm8 v)) none
  | .movR16Imm16 _ v => .imm (immValue (.imm16 v)) none
  | .movRRRegSrc w reg _ => .reg w reg
  | .movEaR w reg _ => .reg w reg
  | .movAddrR w reg _ => .reg w reg
  | .movEaDisp8R w reg _ _ => .reg w reg
  | .movEaDisp16R w reg _ _ => .reg w reg
  | .movRRRegDst w _ rm => rmOperand w (.register rm)
  | .movREa w _ rm => rmOperand w (.expr rm)
  | .movRAddr w _ a => rmOperand w (.direct a)
  | .movREaDisp8 w _ rm d => rmOperand w (.disp8 rm d)
  | .movREaDisp16 w _ rm d => rmOperand w (.disp16 rm d)
  | .movRImm _ _ i => .imm (immValue i) none
  | .movEaImm _ _ i => .imm (immValue i) (some i.width)
  | .movAddrImm _ _ i => .imm (immValue i) (some i.width)
  | .movEaDisp8Imm _ _ _ i => .imm (immValue i) (some i.width)
  | .movEaDisp16Imm _ _ _ i => .imm (immValue i) (some i.width)
  | .movAccAddr _ a => .direct (unsigned16 a)
  | .movAddrAcc w _ => accumulator w

/-- The record an instruction standing at `p` becomes. -/
def recordOf (i : Instr) (p : Nat) : Record := ⟨destOf i, srcOf i, i.length, p⟩

/-- exec, for every instruction: complete with its two operands and its length. -/
theorem exec_eq_completeMov (i : Instr) (s : State) : exec i s = completeMov (destOf i) (srcOf i) i.length s := by
  cases i <;> rfl

/-- The shared operation answers next when the record has a text. -/
theorem completeMov_of_text {d o : Operand} {n : Nat} {s : State} {t : Text}
    (h : recordText ⟨d, o, n, s.ip⟩ = some t) :
    completeMov d o n s = .next ((s.emit ⟨d, o, n, s.ip⟩ t).advance n) := by
  simp [completeMov, h]

/-- Everything the shared operation's next state can be. -/
theorem completeMov_next {d o : Operand} {n : Nat} {s s' : State} (h : completeMov d o n s = .next s') :
    ∃ t, recordText ⟨d, o, n, s.ip⟩ = some t ∧ s' = (s.emit ⟨d, o, n, s.ip⟩ t).advance n := by
  unfold completeMov at h
  split at h
  · rename_i t ht
    exact ⟨t, ht, by cases h; rfl⟩
  · cases h

/-- Everything a next state of exec can be. -/
theorem exec_next {i : Instr} {s s' : State} (h : exec i s = .next s') :
    ∃ t, recordText (recordOf i s.ip) = some t ∧ s' = (s.emit (recordOf i s.ip) t).advance i.length := by
  rw [exec_eq_completeMov] at h
  exact completeMov_next h

/-- An expression number other than 6 has a name (R103). -/
theorem eaName_isSome {rm : Idx} (h : rm ≠ directAddressRm) : (eaName rm false).isSome := by
  revert rm; decide

/-- Every expression number has a name when a displacement is present (R103). -/
theorem eaName_disp_isSome (rm : Idx) : (eaName rm true).isSome := by revert rm; decide

/-- A register/memory operand has a text unless it is the expression that is the direct address. -/
theorem rmOperand_text {w : Width} {m : RmForm} (h : m ≠ .expr directAddressRm) :
    ∃ t, operandText (rmOperand w m) = some t := by
  cases m with
  | register rm => exact ⟨_, rfl⟩
  | expr rm =>
    obtain ⟨e, he⟩ := Option.isSome_iff_exists.mp (eaName_isSome (rm := rm) (by rintro rfl; exact h rfl))
    exact ⟨_, by simp [operandText, rmOperand, memText, he]; rfl⟩
  | direct a => exact ⟨_, rfl⟩
  | disp8 rm d =>
    obtain ⟨e, he⟩ := Option.isSome_iff_exists.mp (eaName_disp_isSome rm)
    exact ⟨_, by simp [operandText, rmOperand, memText, he]; rfl⟩
  | disp16 rm d =>
    obtain ⟨e, he⟩ := Option.isSome_iff_exists.mp (eaName_disp_isSome rm)
    exact ⟨_, by simp [operandText, rmOperand, memText, he]; rfl⟩

/-- Everything a next state of the host's step can be: the state itself at the end of a run, an instruction's effect, or a
raised error. -/
theorem step_next {s s' : State} (h : step s = .next s') :
    ((s.status = some .done ∨ s.status = some .failed) ∧ s' = s) ∨
    (s.status = some .scanning ∧ ∃ i, s.fetch = .ok i ∧ exec i s = .next s') ∨
    (s.status = some .scanning ∧ ∃ r, s.fetch = .error r ∧ s' = s.raise (s.errorOf r)) := by
  unfold step at h
  split at h
  · rename_i hs
    split at h
    · rename_i i hi; exact .inr (.inl ⟨hs, i, hi, h⟩)
    · rename_i r hr; exact .inr (.inr ⟨hs, r, hr, by cases h; rfl⟩)
  · rename_i hs; exact .inl ⟨.inl hs, by cases h; rfl⟩
  · rename_i hs; exact .inl ⟨.inr hs, by cases h; rfl⟩
  · cases h

/-- A Scanning step on bytes that are an instruction. -/
theorem step_of_fetch_ok {s : State} {i : Instr} (hs : s.status = some .scanning) (h : s.fetch = .ok i) :
    step s = exec i s := by
  simp [step, hs, h]

/-- A Scanning step on bytes that are none. -/
theorem step_of_fetch_error {s : State} {r : Reject} (hs : s.status = some .scanning) (h : s.fetch = .error r) :
    step s = .next (s.raise (s.errorOf r)) := by
  simp [step, hs, h]

end Sys2Proof.Machine
end

