-- ==== Sys2Proof/Laws/PerInstr.lean ====
section
/-! SUPPORT. Sys2Proof/Laws/PerInstr.lean: the family EncodeLength: an instruction's encoding has the length of its row in
spec/30_encoding.md R70, between 2 and 6 bytes. -/

namespace Sys2Proof.Laws.EncodeLength

open Sys2Proof

/-- What is said of each instruction. -/
def Statement (i : Instr) : Prop := (encode i).length = i.length ∧ 2 ≤ i.length ∧ i.length ≤ Config.maxLength

theorem movR8Imm8 (reg : Idx) (imm : Byte) : Statement (.movR8Imm8 reg imm) :=
  ⟨rfl, Nat.le_of_ble_eq_true rfl, Nat.le_of_ble_eq_true rfl⟩

theorem movR16Imm16 (reg : Idx) (imm : Word) : Statement (.movR16Imm16 reg imm) :=
  ⟨rfl, Nat.le_of_ble_eq_true rfl, Nat.le_of_ble_eq_true rfl⟩

theorem movRRRegSrc (w : Width) (reg rm : Idx) : Statement (.movRRRegSrc w reg rm) :=
  ⟨rfl, Nat.le_of_ble_eq_true rfl, Nat.le_of_ble_eq_true rfl⟩

theorem movEaR (w : Width) (reg rm : Idx) : Statement (.movEaR w reg rm) :=
  ⟨rfl, Nat.le_of_ble_eq_true rfl, Nat.le_of_ble_eq_true rfl⟩

theorem movAddrR (w : Width) (reg : Idx) (addr : Word) : Statement (.movAddrR w reg addr) :=
  ⟨rfl, Nat.le_of_ble_eq_true rfl, Nat.le_of_ble_eq_true rfl⟩

theorem movEaDisp8R (w : Width) (reg rm : Idx) (disp : Byte) : Statement (.movEaDisp8R w reg rm disp) :=
  ⟨rfl, Nat.le_of_ble_eq_true rfl, Nat.le_of_ble_eq_true rfl⟩

theorem movEaDisp16R (w : Width) (reg rm : Idx) (disp : Word) : Statement (.movEaDisp16R w reg rm disp) :=
  ⟨rfl, Nat.le_of_ble_eq_true rfl, Nat.le_of_ble_eq_true rfl⟩

theorem movRRRegDst (w : Width) (reg rm : Idx) : Statement (.movRRRegDst w reg rm) :=
  ⟨rfl, Nat.le_of_ble_eq_true rfl, Nat.le_of_ble_eq_true rfl⟩

theorem movREa (w : Width) (reg rm : Idx) : Statement (.movREa w reg rm) :=
  ⟨rfl, Nat.le_of_ble_eq_true rfl, Nat.le_of_ble_eq_true rfl⟩

theorem movRAddr (w : Width) (reg : Idx) (addr : Word) : Statement (.movRAddr w reg addr) :=
  ⟨rfl, Nat.le_of_ble_eq_true rfl, Nat.le_of_ble_eq_true rfl⟩

theorem movREaDisp8 (w : Width) (reg rm : Idx) (disp : Byte) : Statement (.movREaDisp8 w reg rm disp) :=
  ⟨rfl, Nat.le_of_ble_eq_true rfl, Nat.le_of_ble_eq_true rfl⟩

theorem movREaDisp16 (w : Width) (reg rm : Idx) (disp : Word) : Statement (.movREaDisp16 w reg rm disp) :=
  ⟨rfl, Nat.le_of_ble_eq_true rfl, Nat.le_of_ble_eq_true rfl⟩

theorem movRImm (x rm : Idx) (imm : Imm) : Statement (.movRImm x rm imm) := by
  cases imm <;> exact ⟨rfl, Nat.le_of_ble_eq_true rfl, Nat.le_of_ble_eq_true rfl⟩

theorem movEaImm (x rm : Idx) (imm : Imm) : Statement (.movEaImm x rm imm) := by
  cases imm <;> exact ⟨rfl, Nat.le_of_ble_eq_true rfl, Nat.le_of_ble_eq_true rfl⟩

theorem movAddrImm (x : Idx) (addr : Word) (imm : Imm) : Statement (.movAddrImm x addr imm) := by
  cases imm <;> exact ⟨rfl, Nat.le_of_ble_eq_true rfl, Nat.le_of_ble_eq_true rfl⟩

theorem movEaDisp8Imm (x rm : Idx) (disp : Byte) (imm : Imm) : Statement (.movEaDisp8Imm x rm disp imm) := by
  cases imm <;> exact ⟨rfl, Nat.le_of_ble_eq_true rfl, Nat.le_of_ble_eq_true rfl⟩

theorem movEaDisp16Imm (x rm : Idx) (disp : Word) (imm : Imm) : Statement (.movEaDisp16Imm x rm disp imm) := by
  cases imm <;> exact ⟨rfl, Nat.le_of_ble_eq_true rfl, Nat.le_of_ble_eq_true rfl⟩

theorem movAccAddr (w : Width) (addr : Word) : Statement (.movAccAddr w addr) :=
  ⟨rfl, Nat.le_of_ble_eq_true rfl, Nat.le_of_ble_eq_true rfl⟩

theorem movAddrAcc (w : Width) (addr : Word) : Statement (.movAddrAcc w addr) :=
  ⟨rfl, Nat.le_of_ble_eq_true rfl, Nat.le_of_ble_eq_true rfl⟩

end Sys2Proof.Laws.EncodeLength
end

