-- ==== Sys2Proof/Laws/Reads.lean ====
section
/-! SUPPORT. Sys2Proof/Laws/Reads.lean: what a reader whose words are its bytes can answer, and everything the decoder's
shared reads (`readImm`, `decodeRm`) can give, in success and in failure. Both readers of the model are such. -/

namespace Sys2Proof

/-- The words of a reader are its bytes, the lower offset less significant (20_memory.md R44, R47). -/
structure Reader.Coherent (rd : Reader) : Prop where
  word_of_bytes : ∀ k lo hi, rd.byte k = some lo → rd.byte (k + 1) = some hi → rd.word k = some (leWord lo hi)
  bytes_of_word : ∀ k w, rd.word k = some w → rd.byte k = some (loByte w) ∧ rd.byte (k + 1) = some (hiByte w)

theorem listReader_coherent (bs : List Byte) : (listReader bs).Coherent :=
  ⟨fun _ _ _ => listReader_word, fun _ _ => listReader_word_some⟩

theorem Machine.State.reader_coherent (s : Machine.State) : s.reader.Coherent where
  word_of_bytes k lo hi h1 h2 := Machine.Memory.readWord_eq_some_iff.mpr ⟨lo, hi, h1, h2, rfl⟩
  bytes_of_word k w h := by
    obtain ⟨lo, hi, h1, h2, rfl⟩ := Machine.Memory.readWord_eq_some_iff.mp h
    rw [loByte_leWord, hiByte_leWord]
    exact ⟨h1, h2⟩

/-! ### Success and failure of `Except`'s map and bind -/

theorem except_map_ok {α β ε : Type} {x : Except ε α} {f : α → β} {b : β} (h : x.map f = .ok b) :
    ∃ a, x = .ok a ∧ f a = b := by
  cases x <;> simp [Except.map] at h ⊢; exact h

theorem except_map_error {α β ε : Type} {x : Except ε α} {f : α → β} {e : ε} (h : x.map f = .error e) :
    x = .error e := by
  cases x <;> simp [Except.map] at h ⊢; exact h

theorem except_bind_ok {α β ε : Type} {x : Except ε α} {f : α → Except ε β} {b : β} (h : (x >>= f) = .ok b) :
    ∃ a, x = .ok a ∧ f a = .ok b := by
  cases x <;> simp [bind, Except.bind] at h ⊢; exact h

theorem except_bind_error {α β ε : Type} {x : Except ε α} {f : α → Except ε β} {e : ε} (h : (x >>= f) = .error e) :
    x = .error e ∨ ∃ a, x = .ok a ∧ f a = .error e := by
  cases x <;> simp [bind, Except.bind] at h ⊢
  · exact h
  · exact h

/-! ### The two read primitives -/

theorem Reader.readByte_eq_ok_iff {rd : Reader} {k : Nat} {b : Byte} : rd.readByte k = .ok b ↔ rd.byte k = some b := by
  unfold Reader.readByte; cases rd.byte k <;> simp

theorem Reader.readByte_error {rd : Reader} {k : Nat} {r : Reject} (h : rd.readByte k = .error r) :
    r = .outOfRange k ∧ rd.byte k = none := by
  obtain ⟨b, e, e'⟩ | ⟨e, e'⟩ := rd.readByte_cases k <;> rw [e'] at h <;> cases h
  exact ⟨rfl, e⟩

theorem Reader.Coherent.readWord_eq_ok_iff {rd : Reader} (c : rd.Coherent) {k : Nat} {w : Word} :
    rd.readWord k = .ok w ↔ rd.byte k = some (loByte w) ∧ rd.byte (k + 1) = some (hiByte w) := by
  constructor
  · intro h
    obtain ⟨v, e, e'⟩ | ⟨-, e'⟩ := rd.readWord_cases k <;> rw [e'] at h <;> cases h
    exact c.bytes_of_word _ _ e
  · rintro ⟨h1, h2⟩
    rw [Reader.readWord_some (c.word_of_bytes _ _ _ h1 h2), leWord_loByte_hiByte]

theorem Reader.Coherent.readWord_error {rd : Reader} (c : rd.Coherent) {k : Nat} {r : Reject}
    (h : rd.readWord k = .error r) : r = .outOfRange k ∧ (rd.byte k = none ∨ rd.byte (k + 1) = none) := by
  obtain ⟨v, e, e'⟩ | ⟨e, e'⟩ := rd.readWord_cases k <;> rw [e'] at h <;> cases h
  refine ⟨rfl, ?_⟩
  cases h1 : rd.byte k with
  | none => simp
  | some a =>
    cases h2 : rd.byte (k + 1) with
    | none => simp
    | some b => rw [c.word_of_bytes _ _ _ h1 h2] at e; cases e

theorem Reader.Coherent.readWord_fails {rd : Reader} (c : rd.Coherent) {k : Nat} (h : rd.byte (k + 1) = none) :
    rd.readWord k = .error (.outOfRange k) := by
  apply Reader.readWord_none
  cases e : rd.word k with
  | none => rfl
  | some w => rw [(c.bytes_of_word _ _ e).2] at h; cases h

/-! ### The immediate -/

/-- The immediate whose bytes stand at `k` is read. -/
theorem Reader.Coherent.readImm_of_bytes {rd : Reader} (c : rd.Coherent) {k : Nat} {i : Imm}
    (h : ∀ j, j < i.bytes.length → rd.byte (k + j) = i.bytes[j]?) : rd.readImm i.width k = .ok i := by
  have h0 := h 0 (by cases i <;> simp [Imm.bytes, wordBytes])
  rw [Nat.add_zero] at h0
  cases i with
  | imm8 v =>
    show (rd.readByte k).map Imm.imm8 = _
    rw [Reader.readByte_some (b := v) h0]; rfl
  | imm16 v =>
    have h1 := h 1 (by simp [Imm.bytes, wordBytes])
    show (rd.readWord k).map Imm.imm16 = _
    rw [c.readWord_eq_ok_iff.mpr ⟨h0, h1⟩]; rfl

/-- Everything a successful immediate read can be. -/
theorem Reader.Coherent.readImm_ok {rd : Reader} (c : rd.Coherent) {w : Width} {k : Nat} {i : Imm}
    (h : rd.readImm w k = .ok i) : i.width = w ∧ ∀ j, j < i.bytes.length → rd.byte (k + j) = i.bytes[j]? := by
  refine ⟨Reader.readImm_width h, ?_⟩
  cases w <;> obtain ⟨v, e, rfl⟩ := except_map_ok h <;> intro j hj
  · obtain rfl : j = 0 := by simpa [Imm.bytes] using hj
    exact Reader.readByte_eq_ok_iff.mp e
  · obtain rfl | rfl : j = 0 ∨ j = 1 := by simp [Imm.bytes, wordBytes] at hj; omega
    · exact (c.readWord_eq_ok_iff.mp e).1
    · exact (c.readWord_eq_ok_iff.mp e).2

/-- Everything a failed immediate read can be. -/
theorem Reader.Coherent.readImm_error {rd : Reader} (c : rd.Coherent) {w : Width} {k : Nat} {r : Reject}
    (h : rd.readImm w k = .error r) : r = .outOfRange k ∧ (rd.byte k = none ∨ rd.byte (k + 1) = none) := by
  cases w
  · have := Reader.readByte_error (except_map_error h)
    exact ⟨this.1, .inl this.2⟩
  · exact c.readWord_error (except_map_error h)

/-! ### The register/memory operand -/

/-- Every byte is a mod byte of one of the four modes. -/
theorem modByte_cases (b : Byte) :
    ∃ reg rm, b = modByteOf 0 reg rm ∨ b = modByteOf 1 reg rm ∨ b = modByteOf 2 reg rm ∨ b = modByteOf 3 reg rm := by
  refine ⟨regField b, lowField b, ?_⟩
  have e := modByteOf_fields b
  have : modeField b = 0 ∨ modeField b = 1 ∨ modeField b = 2 ∨ modeField b = 3 := by have := modeField_lt b; omega
  rcases this with h | h | h | h <;> rw [h] at e
  · exact .inl e.symm
  · exact .inr (.inl e.symm)
  · exact .inr (.inr (.inl e.symm))
  · exact .inr (.inr (.inr e.symm))

/-- The mod byte and what follows it: one byte and the displacement. -/
theorem RmForm.bytes_length (m : RmForm) (reg : Idx) : (m.bytes reg).length = 1 + m.dispSize := by cases m <;> rfl

/-- A form whose bytes stand at offset 1 is decoded; its mod byte carries the Register field. -/
theorem decodeRm_of_bytes {rd : Reader} (c : rd.Coherent) {reg : Idx} {m : RmForm} (hm : m ≠ .expr directAddressRm)
    (h : ∀ j, j < (m.bytes reg).length → rd.byte (1 + j) = (m.bytes reg)[j]?) :
    ∃ b1, rd.readByte 1 = .ok b1 ∧ regField b1 = reg ∧ decodeRm rd b1 (modeField b1) (lowField b1) = .ok m := by
  have h0 := h 0 (by rw [RmForm.bytes_length]; omega)
  cases m with
  | register rm => exact ⟨_, Reader.readByte_some h0, by simp, by simp [decodeRm]⟩
  | expr rm =>
    have : rm ≠ directAddressRm := by rintro rfl; exact hm rfl
    exact ⟨_, Reader.readByte_some h0, by simp, by simp [decodeRm, this]⟩
  | direct a =>
    have h1 := h 1 (by simp [RmForm.bytes, wordBytes])
    have h2 := h 2 (by simp [RmForm.bytes, wordBytes])
    exact ⟨_, Reader.readByte_some h0, by simp, by simp [decodeRm, c.readWord_eq_ok_iff.mpr ⟨h1, h2⟩, Except.map]⟩
  | disp8 rm d =>
    have h1 := h 1 (by simp [RmForm.bytes])
    exact ⟨_, Reader.readByte_some h0, by simp, by simp [decodeRm, Reader.readByte_some h1, Except.map]⟩
  | disp16 rm d =>
    have h1 := h 1 (by simp [RmForm.bytes, wordBytes])
    have h2 := h 2 (by simp [RmForm.bytes, wordBytes])
    exact ⟨_, Reader.readByte_some h0, by simp, by simp [decodeRm, c.readWord_eq_ok_iff.mpr ⟨h1, h2⟩, Except.map]⟩

/-- Everything a successful `decodeRm` can be: a form other than the direct address as an expression, whose bytes stand at
offset 1. -/
theorem decodeRm_ok {rd : Reader} (c : rd.Coherent) {b1 : Byte} {m : RmForm} (hb : rd.byte 1 = some b1)
    (h : decodeRm rd b1 (modeField b1) (lowField b1) = .ok m) :
    m ≠ .expr directAddressRm ∧ ∀ j, j < (m.bytes (regField b1)).length → rd.byte (1 + j) = (m.bytes (regField b1))[j]? := by
  have three : ∀ j, j < 3 → j = 0 ∨ j = 1 ∨ j = 2 := by omega
  obtain ⟨reg, rm, rfl | rfl | rfl | rfl⟩ := modByte_cases b1 <;> simp [decodeRm] at h ⊢
  · split at h
    · rename_i hrm; subst hrm
      obtain ⟨a, e, rfl⟩ := except_map_ok h
      have e := c.readWord_eq_ok_iff.mp e
      refine ⟨by simp, fun j hj => ?_⟩
      rcases three j (by simpa [RmForm.bytes, wordBytes] using hj) with rfl | rfl | rfl
      exacts [hb, e.1, e.2]
    · rename_i hrm; cases h
      refine ⟨by simpa using hrm, fun j hj => ?_⟩
      obtain rfl : j = 0 := by simpa [RmForm.bytes] using hj
      exact hb
  · obtain ⟨a, e, rfl⟩ := except_map_ok h
    refine ⟨by simp, fun j hj => ?_⟩
    obtain rfl | rfl : j = 0 ∨ j = 1 := by simp [RmForm.bytes] at hj; omega
    exacts [hb, Reader.readByte_eq_ok_iff.mp e]
  · obtain ⟨a, e, rfl⟩ := except_map_ok h
    have e := c.readWord_eq_ok_iff.mp e
    refine ⟨by simp, fun j hj => ?_⟩
    rcases three j (by simpa [RmForm.bytes, wordBytes] using hj) with rfl | rfl | rfl
    exacts [hb, e.1, e.2]
  · cases h
    refine ⟨by simp, fun j hj => ?_⟩
    obtain rfl : j = 0 := by simpa [RmForm.bytes] using hj
    exact hb

/-- Everything a failed `decodeRm` can be: the displacement or address read at offset 2; InvalidMode is unreachable. -/
theorem decodeRm_error {rd : Reader} (c : rd.Coherent) {b1 : Byte} {r : Reject}
    (h : decodeRm rd b1 (modeField b1) (lowField b1) = .error r) :
    r = .outOfRange 2 ∧ (rd.byte 2 = none ∨ rd.byte 3 = none) := by
  obtain ⟨reg, rm, rfl | rfl | rfl | rfl⟩ := modByte_cases b1 <;> simp [decodeRm] at h
  · split at h
    · exact c.readWord_error (except_map_error h)
    · cases h
  · have := Reader.readByte_error (except_map_error h)
    exact ⟨this.1, .inl this.2⟩
  · exact c.readWord_error (except_map_error h)

/-! ### What the three form-by-form constructors of instructions build -/

theorem instrRmFromReg_spec {w : Width} {reg : Idx} {m : RmForm} (hm : m ≠ .expr directAddressRm) :
    WellFormed (instrRmFromReg w reg m) = true ∧ encode (instrRmFromReg w reg m) = encodeRmReg 0 w reg m ∧
      (instrRmFromReg w reg m).length = 2 + m.dispSize := by
  cases m <;> simp [instrRmFromReg, WellFormed, encode, Instr.length, RmForm.dispSize]
  simpa using hm

theorem instrRegFromRm_spec {w : Width} {reg : Idx} {m : RmForm} (hm : m ≠ .expr directAddressRm) :
    WellFormed (instrRegFromRm w reg m) = true ∧ encode (instrRegFromRm w reg m) = encodeRmReg 1 w reg m ∧
      (instrRegFromRm w reg m).length = 2 + m.dispSize := by
  cases m <;> simp [instrRegFromRm, WellFormed, encode, Instr.length, RmForm.dispSize]
  simpa using hm

theorem instrImmToRm_spec {x : Idx} {i : Imm} {m : RmForm} (hm : m ≠ .expr directAddressRm) :
    WellFormed (instrImmToRm x i m) = true ∧ encode (instrImmToRm x i m) = encodeImmToRm x i m ∧
      (instrImmToRm x i m).length = 2 + m.dispSize + immSize i.width := by
  cases m <;> simp [instrImmToRm, WellFormed, encode, Instr.length, RmForm.dispSize]
  simpa using hm

end Sys2Proof
end

