-- ==== Sys2Proof/Laws/Text.lean ====
section
/-! SUPPORT. Sys2Proof/Laws/Text.lean: the two's-complement readings are Lean's own; the decimal digits by recursion on the
quotient; the lengths of the names and numbers a line is built of; what a record's text is. -/

namespace Sys2Proof.Machine

/-- `signed16` is the two's-complement value. -/
theorem signed16_eq_toInt (v : Word) : signed16 v = v.toInt := by
  rw [signed16, BitVec.toInt_eq_toNat_cond]; split <;> split <;> omega

/-- The value of a sign-extended byte is the byte's own. -/
theorem signed16_sext16 (v : Byte) : signed16 (sext16 v) = v.toInt := by revert v; decide

/-! ### Dec -/

theorem digitsInto_append : ∀ (f n : Nat) (acc : Text), digitsInto f n acc = digitsInto f n [] ++ acc
  | 0, _, _ => rfl
  | f + 1, n, acc => by
    simp only [digitsInto]; split
    · rfl
    · rw [digitsInto_append f _ (_ :: acc), digitsInto_append f _ [_]]; simp

/-- Any fuel above the number gives the same digits. -/
theorem digitsInto_fuel : ∀ f g n : Nat, n < f → n < g → digitsInto f n [] = digitsInto g n []
  | 0, _, _, h, _ => absurd h (Nat.not_lt_zero _)
  | _, 0, _, _, h => absurd h (Nat.not_lt_zero _)
  | f + 1, g + 1, n, h1, h2 => by
    simp only [digitsInto]; split
    · rfl
    · rename_i h; simp only [Config.numberBase] at *
      rw [digitsInto_append f, digitsInto_append g, digitsInto_fuel f g (n / 10) (by omega) (by omega)]

/-- One digit. -/
theorem decNat_of_lt {n : Nat} (h : n < 10) : decNat n = [digitChar n] := by
  unfold decNat; simp only [digitsInto]; rw [if_pos (by simpa [Config.numberBase] using h)]

/-- More digits: those of the quotient, then the remainder's. -/
theorem decNat_of_ge {n : Nat} (h : 10 ≤ n) : decNat n = decNat (n / 10) ++ [digitChar (n % 10)] := by
  rw [decNat]; simp only [digitsInto]
  rw [if_neg (by simp [Config.numberBase]; omega), digitsInto_append]
  simp only [Config.numberBase, decNat]
  rw [digitsInto_fuel n (n / 10 + 1) (n / 10) (by omega) (by omega)]

/-- The code of a digit. -/
theorem digitChar_toNat {d : Nat} (h : d < 10) : (digitChar d).toNat = 0x30 + d := by simp [digitChar]; omega

/-- A number below `10 ^ (k + 1)` has at most `k + 1` digits. -/
theorem decNat_length (k n : Nat) (h : n < 10 ^ (k + 1)) : 1 ≤ (decNat n).length ∧ (decNat n).length ≤ k + 1 := by
  induction k generalizing n with
  | zero => rw [decNat_of_lt (by simpa using h)]; simp
  | succ k ih =>
    by_cases hn : n < 10
    · rw [decNat_of_lt hn]; simp
    · have := ih (n / 10) (by rw [Nat.div_lt_iff_lt_mul (by omega)]; simpa [pow_succ] using h)
      rw [decNat_of_ge (by omega)]; simp; omega

/-- An unsigned 16-bit value prints in 1 to 5 characters. -/
theorem dec_length_unsigned {n : Int} (h1 : 0 ≤ n) (h2 : n ≤ 65535) : 1 ≤ (dec n).length ∧ (dec n).length ≤ 5 := by
  have := decNat_length 4 n.natAbs (by omega)
  unfold dec; rw [if_neg (by omega)]; omega

/-! ### Names and operands -/

@[simp] theorem regName_length (w : Width) (i : Idx) : (regName w i).length = 2 := by cases w <;> revert i <;> decide

theorem eaName_length {rm : Idx} {b : Bool} {e : Text} (h : eaName rm b = some e) : 2 ≤ e.length ∧ e.length ≤ 5 := by
  have : ∀ (rm : Idx) (b : Bool), ∀ e ∈ eaName rm b, 2 ≤ e.length ∧ e.length ≤ 5 := by decide
  exact this rm b e h

theorem qualifier_length (q : Option Width) : (qualifier q).length = 0 ∨ (qualifier q).length = 5 := by
  rcases q with _ | (_ | _) <;> decide

/-- Everything a record's text can be. -/
theorem recordText_eq_some {r : Record} {t : Text} (h : recordText r = some t) :
    ∃ d o, operandText r.dest = some d ∧ operandText r.src = some o ∧ t = ascii "mov " ++ d ++ ascii ", " ++ o := by
  simp only [recordText, Option.bind_eq_bind, Option.bind_eq_some_iff] at h
  obtain ⟨d, hd, o, ho, h⟩ := h
  exact ⟨d, o, hd, ho, (Option.some.inj h).symm⟩

/-- A record whose operands have texts has one. -/
theorem recordText_of_texts {r : Record} {d o : Text} (hd : operandText r.dest = some d) (ho : operandText r.src = some o) :
    recordText r = some (ascii "mov " ++ d ++ ascii ", " ++ o) := by
  simp [recordText, hd, ho]

end Sys2Proof.Machine
end

