-- ==== Sys2Proof/Tests/Slice0.lean ====
section
/-! SUPPORT. Sys2Proof/Tests/Slice0.lean: the model's own tests. Expected results are the bit patterns of spec/30_encoding.md
R64 and the vectors of spec/95_test_vectors.md (parts S and V); no expected value was taken from the model. The witnesses at the
end show, for each statement with hypotheses, concrete inputs that meet them. -/

namespace Sys2Proof.Tests

open Sys2Proof Sys2Proof.Machine Sys2Proof.Claims

/-- The state of 95_test_vectors.md's vectors: reset, the buffer exactly the bytes shown. -/
def loaded (bs : List Byte) : State := State.reset.load bs

/-- The next state of an outcome. -/
def nextOf : Host.Outcome State Fault Refusal → Option State
  | .next t => some t
  | .fault _ => none
  | .refused _ => none

/-- What one step on the bytes appends, and where it leaves `ip`. -/
def oneStep (bs : List Byte) : Option (List OutElem × Nat) := (nextOf (step (loaded bs))).map fun t => (t.out, t.ip)

/-- The same, written as the vectors write it: record, text without the line feed, length. -/
def emits (dest src : Operand) (len : Nat) (text : String) : Option (List OutElem × Nat) :=
  some ([⟨⟨dest, src, len, 0⟩, ascii text ++ [0x0A]⟩], len)

/-- The error one step on the bytes latches. -/
def errorAfter (bs : List Byte) : Option ErrRecord := (nextOf (step (loaded bs))).bind State.err

/-! ### WellFormed: an ill-formed term for each check, and a well-formed neighbour -/

theorem test_wf_movEaR : WellFormed (.movEaR .wide 0 6) = false ∧ WellFormed (.movEaR .wide 6 7) = true := by decide
theorem test_wf_movREa : WellFormed (.movREa .narrow 0 6) = false ∧ WellFormed (.movREa .narrow 6 5) = true := by decide
theorem test_wf_movEaImm : WellFormed (.movEaImm 0 6 (.imm8 0)) = false ∧ WellFormed (.movEaImm 6 4 (.imm8 0)) = true := by
  decide

/-! ### Decoding: a word of every constructor, its bits written out from 30_encoding.md R64 -/

theorem test_decode_movR8Imm8 :
    decodeBytes [0b10110101, 0b11110100] = .ok (.movR8Imm8 5 0xF4) := by decide
theorem test_decode_movR16Imm16 :
    decodeBytes [0b10111100, 0b10010100, 0b11110000] = .ok (.movR16Imm16 4 0xF094) := by decide
theorem test_decode_movRRRegSrc :
    decodeBytes [0b10001000, 0b11100101] = .ok (.movRRRegSrc .narrow 4 5) := by decide
theorem test_decode_movEaR :
    decodeBytes [0b10001001, 0b00001100] = .ok (.movEaR .wide 1 4) := by decide
theorem test_decode_movAddrR :
    decodeBytes [0b10001000, 0b00111110, 0b00110100, 0b00010010] = .ok (.movAddrR .narrow 7 0x1234) := by decide
theorem test_decode_movEaDisp8R :
    decodeBytes [0b10001001, 0b01001100, 0b11111110] = .ok (.movEaDisp8R .wide 1 4 0xFE) := by decide
theorem test_decode_movEaDisp16R :
    decodeBytes [0b10001000, 0b10000001, 0b00101100, 0b00000001] = .ok (.movEaDisp16R .narrow 0 1 0x012C) := by decide
theorem test_decode_movRRRegDst :
    decodeBytes [0b10001011, 0b11111110] = .ok (.movRRRegDst .wide 7 6) := by decide
theorem test_decode_movREa :
    decodeBytes [0b10001010, 0b00000010] = .ok (.movREa .narrow 0 2) := by decide
theorem test_decode_movRAddr :
    decodeBytes [0b10001011, 0b00011110, 0b00000000, 0b00010000] = .ok (.movRAddr .wide 3 0x1000) := by decide
theorem test_decode_movREaDisp8 :
    decodeBytes [0b10001010, 0b01100011, 0b11110000] = .ok (.movREaDisp8 .narrow 4 3 0xF0) := by decide
theorem test_decode_movREaDisp16 :
    decodeBytes [0b10001010, 0b10000000, 0b10000111, 0b00010011] = .ok (.movREaDisp16 .narrow 0 0 0x1387) := by decide
theorem test_decode_movRImm :
    decodeBytes [0b11000110, 0b11111011, 0b00000101] = .ok (.movRImm 7 3 (.imm8 5)) := by decide
theorem test_decode_movEaImm :
    decodeBytes [0b11000111, 0b00000111, 0b11111111, 0b01111111] = .ok (.movEaImm 0 7 (.imm16 0x7FFF)) := by decide
theorem test_decode_movAddrImm :
    decodeBytes [0b11000111, 0b00000110, 0b00000000, 0b00010000, 0b00000101, 0b00000000] = .ok (.movAddrImm 0 0x1000 (.imm16 5)) := by decide
theorem test_decode_movEaDisp8Imm :
    decodeBytes [0b11000110, 0b01000110, 0b00000000, 0b11111111] = .ok (.movEaDisp8Imm 0 6 0 (.imm8 0xFF)) := by decide
theorem test_decode_movEaDisp16Imm :
    decodeBytes [0b11000111, 0b10000101, 0b10000101, 0b00000011, 0b01011011, 0b00000001] = .ok (.movEaDisp16Imm 0 5 0x0385 (.imm16 0x015B)) := by decide
theorem test_decode_movAccAddr :
    decodeBytes [0b10100000, 0b00000000, 0b00010000] = .ok (.movAccAddr .narrow 0x1000) := by decide
theorem test_decode_movAddrAcc :
    decodeBytes [0b10100011, 0b00000000, 0b00010000] = .ok (.movAddrAcc .wide 0x1000) := by decide

/-! ### One step of every constructor (95_test_vectors.md V-IR, V-RM, V-IM, V-ACC, S5) -/

theorem test_step_movR8Imm8 :
    oneStep [0xB0, 0x80] =
      emits (.reg .narrow 0) (.imm (-128) none) 2 "mov al, -128" := by decide
theorem test_step_movR16Imm16 :
    oneStep [0xBE, 0x00, 0x01] =
      emits (.reg .wide 6) (.imm 256 none) 3 "mov si, 256" := by decide
theorem test_step_movRRRegSrc :
    oneStep [0x89, 0xD8] =
      emits (.reg .wide 0) (.reg .wide 3) 2 "mov ax, bx" := by decide
theorem test_step_movEaR :
    oneStep [0x89, 0x0C] =
      emits (.mem 4 none) (.reg .wide 1) 2 "mov [si], cx" := by decide
theorem test_step_movAddrR :
    oneStep [0x88, 0x3E, 0x34, 0x12] =
      emits (.direct 4660) (.reg .narrow 7) 4 "mov [4660], bh" := by decide
theorem test_step_movEaDisp8R :
    oneStep [0x88, 0x46, 0x00] =
      emits (.mem 6 (some 0)) (.reg .narrow 0) 3 "mov [bp+0], al" := by decide
theorem test_step_movEaDisp16R :
    oneStep [0x89, 0x8C, 0xD4, 0xFE] =
      emits (.mem 4 (some (-300))) (.reg .wide 1) 4 "mov [si-300], cx" := by decide
theorem test_step_movRRRegDst :
    oneStep [0x8A, 0xC1] =
      emits (.reg .narrow 0) (.reg .narrow 1) 2 "mov al, cl" := by decide
theorem test_step_movREa :
    oneStep [0x8B, 0x3F] =
      emits (.reg .wide 7) (.mem 7 none) 2 "mov di, [bx]" := by decide
theorem test_step_movRAddr :
    oneStep [0x8B, 0x36, 0xFF, 0xFF] =
      emits (.reg .wide 6) (.direct 65535) 4 "mov si, [65535]" := by decide
theorem test_step_movREaDisp8 :
    oneStep [0x8A, 0x44, 0x80] =
      emits (.reg .narrow 0) (.mem 4 (some (-128))) 3 "mov al, [si-128]" := by decide
theorem test_step_movREaDisp16 :
    oneStep [0x8A, 0x84, 0x80, 0x00] =
      emits (.reg .narrow 0) (.mem 4 (some 128)) 4 "mov al, [si+128]" := by decide
theorem test_step_movRImm :
    oneStep [0xC7, 0xC3, 0xF4, 0xFF] =
      emits (.reg .wide 3) (.imm (-12) none) 4 "mov bx, -12" := by decide
theorem test_step_movEaImm :
    oneStep [0xC6, 0x3B, 0x07] =
      emits (.mem 3 none) (.imm 7 (some .narrow)) 3 "mov [bp+di], byte 7" := by decide
theorem test_step_movAddrImm :
    oneStep [0xC6, 0x06, 0xFF, 0xFF, 0x80] =
      emits (.direct 65535) (.imm (-128) (some .narrow)) 5 "mov [65535], byte -128" := by decide
theorem test_step_movEaDisp8Imm :
    oneStep [0xC7, 0x44, 0xFE, 0x00, 0x80] =
      emits (.mem 4 (some (-2))) (.imm (-32768) (some .wide)) 5 "mov [si-2], word -32768" := by decide
theorem test_step_movEaDisp16Imm :
    oneStep [0xC7, 0x82, 0x00, 0x80, 0x00, 0x80] =
      emits (.mem 2 (some (-32768))) (.imm (-32768) (some .wide)) 6
      "mov [bp+si-32768], word -32768" := by decide
theorem test_step_movAccAddr :
    oneStep [0xA1, 0xFF, 0xFF] =
      emits (.reg .wide 0) (.direct 65535) 3 "mov ax, [65535]" := by decide
theorem test_step_movAddrAcc :
    oneStep [0xA2, 0x0D, 0x00] =
      emits (.direct 13) (.reg .narrow 0) 3 "mov [13], al" := by decide

/-! ### Errors (95_test_vectors.md, S8, S9 and the failure tables) -/

theorem test_error_S8 : errorAfter [0x88] = some ⟨.outOfRange, 1, 0x88⟩ := by decide
theorem test_error_S9 : errorAfter [0xFF] = some ⟨.unsupportedOpcode, 0, 0xFF⟩ := by decide
theorem test_error_word_whole : errorAfter [0xB8, 0x01] = some ⟨.outOfRange, 1, 0xB8⟩ := by decide
theorem test_error_address : errorAfter [0x8B, 0x06, 0x00] = some ⟨.outOfRange, 2, 0x8B⟩ := by decide
theorem test_error_displacement : errorAfter [0x8B, 0x46] = some ⟨.outOfRange, 2, 0x8B⟩ := by decide
theorem test_error_immediate : errorAfter [0xC7, 0x06, 0x00, 0x10, 0x05] = some ⟨.outOfRange, 4, 0xC7⟩ := by decide
theorem test_error_accumulator : errorAfter [0xA2, 0x00] = some ⟨.outOfRange, 1, 0xA2⟩ := by decide
theorem test_error_D1 : errorAfter [0xC4, 0x00] = some ⟨.unsupportedOpcode, 0, 0xC4⟩ := by decide
theorem test_error_emits_nothing : oneStep [0xC7, 0x06, 0x00, 0x10, 0x05] = some ([], 0) := by decide

/-! ### Tables, the run's ends, the host's words -/

theorem test_classifier_bounds :
    ([0x87, 0x8C, 0x9F, 0xA4, 0xAF, 0xC0, 0xC5, 0xC8, 0x8E].map classify).all Option.isNone = true ∧
    [0x88, 0x8B, 0xA1, 0xA2, 0xBF, 0xC6].map classify =
      [some .rmReg, some .rmReg, some .memToAcc, some .accToMem, some .immToReg, some .immToRm] := by decide
theorem test_register_name_lut : registerNameLut .wide 4 = 0x7370 ∧ registerNameLut .narrow 3 = 0x626C := by decide
theorem test_empty_buffer_is_done : (loaded []).status = some .done := by decide
theorem test_reset_state : State.reset.ip = 0 ∧ State.reset.err = none ∧ State.reset.out = [] := by decide
theorem test_status_reg : ((nextOf (step (loaded [0xFF]))).map State.statusReg) = some 0b111111111010 := by decide
theorem test_table_word : decodeTableWord 16 0xD888 = some (.movRRRegSrc .narrow 3 0) ∧ decodeTableWord 8 0xFF = none ∧
    decodeTableWord 16 0x06C7 = some (.movAddrImm 0 0 (.imm16 0)) := by decide
theorem test_fetch_word_runs_first :
    ((nextOf (step (State.reset.withFetchWord 16 0x0CB1))).map fun t => (t.ip, t.out.map OutElem.line)) =
      some (2, [ascii "mov cl, 12" ++ [0x0A]]) := by decide

/-! ### Witnesses: concrete inputs that meet the hypotheses of each statement, clause by clause -/

theorem witness_DecodeOfEncodeIsTheInstruction :
    WellFormed (.movEaDisp16Imm 7 6 0x8000 (.imm16 0xFFFF)) = true := by decide

theorem witness_DecodedBytesAreTheEncoding :
    decodeBytes [0xC6, 0xFB, 0x05, 0xFF] = .ok (.movRImm 7 3 (.imm8 5)) := by decide

theorem witness_ClassifierFollowsTheTableInAnyOrder :
    classifierTable.reverse.Perm classifierTable := List.reverse_perm _

theorem witness_LengthIsTheTableRow :
    decodeBytes (0xC7 :: 0x86 :: [0, 0, 0, 0]) = .ok (.movEaDisp16Imm 0 6 0 (.imm16 0)) ∧
    decodeBytes (0xB0 :: 0xFF :: []) = .ok (.movR8Imm8 0 0xFF) := by decide

theorem witness_EveryAcceptedPairMatchesOneTableRow :
    decodeBytes (0x88 :: 0x06 :: [0, 0]) = .ok (.movAddrR .narrow 0 0) ∧
    classify 0xC7 ≠ none ∧ classify 0xC8 = none := by decide

theorem witness_LoadedBytesAreReadBack :
    ([0x34, 0x12] : List Byte)[0]? = some 0x34 ∧ ([0x34, 0x12] : List Byte)[0 + 1]? = some 0x12 ∧
    ([0x34, 0x12] : List Byte).length ≤ 1 + 1 := by decide

theorem witness_EqualReadsAreEqualBuffers :
    ∃ m n : Memory, m.wf = true ∧ n.wf = true ∧ m.size = n.size ∧ (∀ a, m.readByte a = n.readByte a) ∧ m.size = 2 :=
  ⟨Memory.ofBytes [0, 5], ((Memory.ofBytes [7, 5]).poke 0 0), by decide, by decide, by decide, fun _ => rfl, by decide⟩

theorem witness_StepRunsTheDecodedInstruction :
    (loaded [0xB0, 0x80]).status = some .scanning ∧ (loaded [0xB0, 0x80]).fetch = .ok (.movR8Imm8 0 0x80) := by decide

theorem witness_BytesAtIpRunTheirInstruction :
    ∃ s : State, s.status = some .scanning ∧ WellFormed (.movAccAddr .wide 0xFFFF) = true ∧
      ∀ k, k < (encode (.movAccAddr .wide 0xFFFF)).length →
        s.buf.readByte (s.ip + k) = (encode (.movAccAddr .wide 0xFFFF))[k]? := ⟨loaded [0xA1, 0xFF, 0xFF], by decide⟩

theorem witness_MovR8Imm8Rule :
    ∃ s : State, s.status = some .scanning ∧ s.buf.readByte s.ip = some (0b10110#5 ++ (7 : Idx)) ∧
      s.buf.readByte (s.ip + 1) = some (0x80) := ⟨loaded [0xB7, 0x80], by decide⟩

theorem witness_MovR8Imm8Rule_short :
    ∃ s : State, s.status = some .scanning ∧ s.buf.readByte s.ip = some (0b10110#5 ++ (7 : Idx)) ∧
      s.buf.size ≤ s.ip + 1 := ⟨loaded [0xB7], by decide⟩

theorem witness_MovR16Imm16Rule :
    ∃ s : State, s.status = some .scanning ∧ s.buf.readByte s.ip = some (0b10111#5 ++ (7 : Idx)) ∧
      s.buf.readByte (s.ip + 1) = some (0xFF) ∧ s.buf.readByte (s.ip + 2) = some (0x00) :=
  ⟨loaded [0xBF, 0xFF, 0x00], by decide⟩

theorem witness_MovR16Imm16Rule_short :
    ∃ s : State, s.status = some .scanning ∧ s.buf.readByte s.ip = some (0b10111#5 ++ (7 : Idx)) ∧
      s.buf.size ≤ s.ip + 2 := ⟨loaded [0xBF, 0xFF], by decide⟩

theorem witness_MovRegRegRule :
    ∃ s : State, s.status = some .scanning ∧ s.buf.readByte s.ip = some (0b100010#6 ++ 1#1 ++ Width.bit .narrow) ∧
      s.buf.readByte (s.ip + 1) = some (0b11#2 ++ (7 : Idx) ++ (6 : Idx)) := ⟨loaded [0x8A, 0xFE], by decide⟩

theorem witness_MovRegRegRule_short :
    ∃ s : State, s.status = some .scanning ∧ s.buf.readByte s.ip = some (0b100010#6 ++ 1#1 ++ Width.bit .narrow) ∧
      s.buf.size ≤ s.ip + 1 := ⟨loaded [0x8A], by decide⟩

theorem witness_MovEaRegRule :
    ∃ s : State, s.status = some .scanning ∧ s.buf.readByte s.ip = some (0b100010#6 ++ 0#1 ++ Width.bit .wide) ∧
      (7 : Idx) ≠ 6 ∧ s.buf.readByte (s.ip + 1) = some (0b00#2 ++ (7 : Idx) ++ (7 : Idx)) :=
  ⟨loaded [0x89, 0x3F], by decide⟩

theorem witness_MovEaRegRule_short :
    ∃ s : State, s.status = some .scanning ∧ s.buf.readByte s.ip = some (0b100010#6 ++ 0#1 ++ Width.bit .wide) ∧
      s.buf.size ≤ s.ip + 1 := ⟨loaded [0x89], by decide⟩

theorem witness_MovDirectRegRule :
    ∃ s : State, s.status = some .scanning ∧ s.buf.readByte s.ip = some (0b100010#6 ++ 1#1 ++ Width.bit .wide) ∧
      s.buf.readByte (s.ip + 1) = some (0b00#2 ++ (6 : Idx) ++ 0b110#3) ∧ s.buf.readByte (s.ip + 2) = some (0xFF) ∧ s.buf.readByte (s.ip + 3) = some (0xFF) :=
  ⟨loaded [0x8B, 0x36, 0xFF, 0xFF], by decide⟩

theorem witness_MovDirectRegRule_short :
    ∃ s : State, s.status = some .scanning ∧ s.buf.readByte s.ip = some (0b100010#6 ++ 1#1 ++ Width.bit .wide) ∧
      s.buf.size ≤ s.ip + 1 := ⟨loaded [0x8B], by decide⟩

theorem witness_MovDirectRegRule_short_address :
    ∃ s : State, s.status = some .scanning ∧ s.buf.readByte s.ip = some (0b100010#6 ++ 1#1 ++ Width.bit .wide) ∧
      s.buf.readByte (s.ip + 1) = some (0b00#2 ++ (6 : Idx) ++ 0b110#3) ∧ s.buf.size ≤ s.ip + 3 :=
  ⟨loaded [0x8B, 0x36, 0xFF], by decide⟩

theorem witness_MovDisp8RegRule :
    ∃ s : State, s.status = some .scanning ∧ s.buf.readByte s.ip = some (0b100010#6 ++ 0#1 ++ Width.bit .narrow) ∧
      s.buf.readByte (s.ip + 1) = some (0b01#2 ++ (0 : Idx) ++ (6 : Idx)) ∧ s.buf.readByte (s.ip + 2) = some (0x80) :=
  ⟨loaded [0x88, 0x46, 0x80], by decide⟩

theorem witness_MovDisp8RegRule_short :
    ∃ s : State, s.status = some .scanning ∧ s.buf.readByte s.ip = some (0b100010#6 ++ 0#1 ++ Width.bit .narrow) ∧
      s.buf.size ≤ s.ip + 1 := ⟨loaded [0x88], by decide⟩

theorem witness_MovDisp8RegRule_short_disp :
    ∃ s : State, s.status = some .scanning ∧ s.buf.readByte s.ip = some (0b100010#6 ++ 0#1 ++ Width.bit .narrow) ∧
      s.buf.readByte (s.ip + 1) = some (0b01#2 ++ (0 : Idx) ++ (6 : Idx)) ∧ s.buf.size ≤ s.ip + 2 :=
  ⟨loaded [0x88, 0x46], by decide⟩

theorem witness_MovDisp16RegRule :
    ∃ s : State, s.status = some .scanning ∧ s.buf.readByte s.ip = some (0b100010#6 ++ 1#1 ++ Width.bit .wide) ∧
      s.buf.readByte (s.ip + 1) = some (0b10#2 ++ (0 : Idx) ++ (6 : Idx)) ∧ s.buf.readByte (s.ip + 2) = some (0x00) ∧ s.buf.readByte (s.ip + 3) = some (0x80) :=
  ⟨loaded [0x8B, 0x86, 0x00, 0x80], by decide⟩

theorem witness_MovDisp16RegRule_short :
    ∃ s : State, s.status = some .scanning ∧ s.buf.readByte s.ip = some (0b100010#6 ++ 1#1 ++ Width.bit .wide) ∧
      s.buf.size ≤ s.ip + 1 := ⟨loaded [0x8B], by decide⟩

theorem witness_MovDisp16RegRule_short_disp :
    ∃ s : State, s.status = some .scanning ∧ s.buf.readByte s.ip = some (0b100010#6 ++ 1#1 ++ Width.bit .wide) ∧
      s.buf.readByte (s.ip + 1) = some (0b10#2 ++ (0 : Idx) ++ (6 : Idx)) ∧ s.buf.size ≤ s.ip + 3 :=
  ⟨loaded [0x8B, 0x86, 0x00], by decide⟩

theorem witness_MovRegImmRule :
    ∃ s : State, s.status = some .scanning ∧ s.buf.readByte s.ip = some (0b1100011#7 ++ Width.bit .wide) ∧
      s.buf.readByte (s.ip + 1) = some (0b11#2 ++ (7 : Idx) ++ (3 : Idx)) ∧
      ImmAt s (s.ip + 2) .wide (-32768) :=
  ⟨loaded [0xC7, 0xFB, 0x00, 0x80], by decide, by decide, by decide, ⟨0x00, 0x80, by decide, by decide, by decide⟩⟩

theorem witness_MovRegImmRule_short :
    ∃ s : State, s.status = some .scanning ∧ s.buf.readByte s.ip = some (0b1100011#7 ++ Width.bit .wide) ∧
      s.buf.size ≤ s.ip + 1 :=
  ⟨loaded [0xC7], by decide⟩

theorem witness_MovRegImmRule_short_imm :
    ∃ s : State, s.status = some .scanning ∧ s.buf.readByte s.ip = some (0b1100011#7 ++ Width.bit .wide) ∧
      s.buf.readByte (s.ip + 1) = some (0b11#2 ++ (7 : Idx) ++ (3 : Idx)) ∧
      s.buf.size ≤ s.ip + 2 + Width.toNat .wide :=
  ⟨loaded [0xC7, 0xFB, 0x00], by decide⟩

theorem witness_MovEaImmRule :
    ∃ s : State, s.status = some .scanning ∧ s.buf.readByte s.ip = some (0b1100011#7 ++ Width.bit .narrow) ∧
      (7 : Idx) ≠ 6 ∧ s.buf.readByte (s.ip + 1) = some (0b00#2 ++ (7 : Idx) ++ (7 : Idx)) ∧
      ImmAt s (s.ip + 2) .narrow (-128) :=
  ⟨loaded [0xC6, 0x3F, 0x80], by decide, by decide, by decide, by decide, ⟨0x80, by decide, by decide⟩⟩

theorem witness_MovEaImmRule_short :
    ∃ s : State, s.status = some .scanning ∧ s.buf.readByte s.ip = some (0b1100011#7 ++ Width.bit .narrow) ∧
      s.buf.size ≤ s.ip + 1 :=
  ⟨loaded [0xC6], by decide⟩

theorem witness_MovEaImmRule_short_imm :
    ∃ s : State, s.status = some .scanning ∧ s.buf.readByte s.ip = some (0b1100011#7 ++ Width.bit .narrow) ∧
      (7 : Idx) ≠ 6 ∧ s.buf.readByte (s.ip + 1) = some (0b00#2 ++ (7 : Idx) ++ (7 : Idx)) ∧
      s.buf.size ≤ s.ip + 2 + Width.toNat .narrow :=
  ⟨loaded [0xC6, 0x3F], by decide⟩

theorem witness_MovDirectImmRule :
    ∃ s : State, s.status = some .scanning ∧ s.buf.readByte s.ip = some (0b1100011#7 ++ Width.bit .wide) ∧
      s.buf.readByte (s.ip + 1) = some (0b00#2 ++ (0 : Idx) ++ 0b110#3) ∧ s.buf.readByte (s.ip + 2) = some (0xFF) ∧
      s.buf.readByte (s.ip + 3) = some (0xFF) ∧
      ImmAt s (s.ip + 4) .wide (-32768) :=
  ⟨loaded [0xC7, 0x06, 0xFF, 0xFF, 0x00, 0x80], by decide, by decide, by decide, by decide, by decide, ⟨0x00, 0x80, by decide, by decide, by decide⟩⟩

theorem witness_MovDirectImmRule_short :
    ∃ s : State, s.status = some .scanning ∧ s.buf.readByte s.ip = some (0b1100011#7 ++ Width.bit .wide) ∧
      s.buf.size ≤ s.ip + 1 :=
  ⟨loaded [0xC7], by decide⟩

theorem witness_MovDirectImmRule_short_imm :
    ∃ s : State, s.status = some .scanning ∧ s.buf.readByte s.ip = some (0b1100011#7 ++ Width.bit .wide) ∧
      s.buf.readByte (s.ip + 1) = some (0b00#2 ++ (0 : Idx) ++ 0b110#3) ∧ s.ip + 3 < s.buf.size ∧
      s.buf.size ≤ s.ip + 4 + Width.toNat .wide :=
  ⟨loaded [0xC7, 0x06, 0xFF, 0xFF, 0x00], by decide⟩

theorem witness_MovDirectImmRule_short_disp :
    ∃ s : State, s.status = some .scanning ∧ s.buf.readByte s.ip = some (0b1100011#7 ++ Width.bit .wide) ∧
      s.buf.readByte (s.ip + 1) = some (0b00#2 ++ (0 : Idx) ++ 0b110#3) ∧
      s.buf.size ≤ s.ip + 3 :=
  ⟨loaded [0xC7, 0x06, 0xFF], by decide⟩

theorem witness_MovDisp8ImmRule :
    ∃ s : State, s.status = some .scanning ∧ s.buf.readByte s.ip = some (0b1100011#7 ++ Width.bit .narrow) ∧
      s.buf.readByte (s.ip + 1) = some (0b01#2 ++ (0 : Idx) ++ (6 : Idx)) ∧ s.buf.readByte (s.ip + 2) = some (0x80) ∧
      ImmAt s (s.ip + 3) .narrow (-128) :=
  ⟨loaded [0xC6, 0x46, 0x80, 0x80], by decide, by decide, by decide, by decide, ⟨0x80, by decide, by decide⟩⟩

theorem witness_MovDisp8ImmRule_short :
    ∃ s : State, s.status = some .scanning ∧ s.buf.readByte s.ip = some (0b1100011#7 ++ Width.bit .narrow) ∧
      s.buf.size ≤ s.ip + 1 :=
  ⟨loaded [0xC6], by decide⟩

theorem witness_MovDisp8ImmRule_short_imm :
    ∃ s : State, s.status = some .scanning ∧ s.buf.readByte s.ip = some (0b1100011#7 ++ Width.bit .narrow) ∧
      s.buf.readByte (s.ip + 1) = some (0b01#2 ++ (0 : Idx) ++ (6 : Idx)) ∧ s.ip + 2 < s.buf.size ∧
      s.buf.size ≤ s.ip + 3 + Width.toNat .narrow :=
  ⟨loaded [0xC6, 0x46, 0x80], by decide⟩

theorem witness_MovDisp8ImmRule_short_disp :
    ∃ s : State, s.status = some .scanning ∧ s.buf.readByte s.ip = some (0b1100011#7 ++ Width.bit .narrow) ∧
      s.buf.readByte (s.ip + 1) = some (0b01#2 ++ (0 : Idx) ++ (6 : Idx)) ∧
      s.buf.size ≤ s.ip + 2 :=
  ⟨loaded [0xC6, 0x46], by decide⟩

theorem witness_MovDisp16ImmRule :
    ∃ s : State, s.status = some .scanning ∧ s.buf.readByte s.ip = some (0b1100011#7 ++ Width.bit .wide) ∧
      s.buf.readByte (s.ip + 1) = some (0b10#2 ++ (0 : Idx) ++ (6 : Idx)) ∧ s.buf.readByte (s.ip + 2) = some (0x00) ∧
      s.buf.readByte (s.ip + 3) = some (0x80) ∧
      ImmAt s (s.ip + 4) .wide (-32768) :=
  ⟨loaded [0xC7, 0x86, 0x00, 0x80, 0x00, 0x80], by decide, by decide, by decide, by decide, by decide, ⟨0x00, 0x80, by decide, by decide, by decide⟩⟩

theorem witness_MovDisp16ImmRule_short :
    ∃ s : State, s.status = some .scanning ∧ s.buf.readByte s.ip = some (0b1100011#7 ++ Width.bit .wide) ∧
      s.buf.size ≤ s.ip + 1 :=
  ⟨loaded [0xC7], by decide⟩

theorem witness_MovDisp16ImmRule_short_imm :
    ∃ s : State, s.status = some .scanning ∧ s.buf.readByte s.ip = some (0b1100011#7 ++ Width.bit .wide) ∧
      s.buf.readByte (s.ip + 1) = some (0b10#2 ++ (0 : Idx) ++ (6 : Idx)) ∧ s.ip + 3 < s.buf.size ∧
      s.buf.size ≤ s.ip + 4 + Width.toNat .wide :=
  ⟨loaded [0xC7, 0x86, 0x00, 0x80, 0x00], by decide⟩

theorem witness_MovDisp16ImmRule_short_disp :
    ∃ s : State, s.status = some .scanning ∧ s.buf.readByte s.ip = some (0b1100011#7 ++ Width.bit .wide) ∧
      s.buf.readByte (s.ip + 1) = some (0b10#2 ++ (0 : Idx) ++ (6 : Idx)) ∧
      s.buf.size ≤ s.ip + 3 :=
  ⟨loaded [0xC7, 0x86, 0x00], by decide⟩

theorem witness_MovAccAddrRule :
    ∃ s : State, s.status = some .scanning ∧ s.buf.readByte s.ip = some (0b1010000#7 ++ Width.bit .wide) ∧
      s.buf.readByte (s.ip + 1) = some (0xFF) ∧ s.buf.readByte (s.ip + 2) = some (0xFF) :=
  ⟨loaded [0xA1, 0xFF, 0xFF], by decide⟩

theorem witness_MovAccAddrRule_short :
    ∃ s : State, s.status = some .scanning ∧ s.buf.readByte s.ip = some (0b1010000#7 ++ Width.bit .wide) ∧
      s.buf.size ≤ s.ip + 2 := ⟨loaded [0xA1, 0xFF], by decide⟩

theorem witness_MovAddrAccRule :
    ∃ s : State, s.status = some .scanning ∧ s.buf.readByte s.ip = some (0b1010001#7 ++ Width.bit .narrow) ∧
      s.buf.readByte (s.ip + 1) = some (0xFF) ∧ s.buf.readByte (s.ip + 2) = some (0xFF) :=
  ⟨loaded [0xA2, 0xFF, 0xFF], by decide⟩

theorem witness_MovAddrAccRule_short :
    ∃ s : State, s.status = some .scanning ∧ s.buf.readByte s.ip = some (0b1010001#7 ++ Width.bit .narrow) ∧
      s.buf.size ≤ s.ip + 2 := ⟨loaded [0xA2, 0xFF], by decide⟩

theorem witness_UnsupportedOpcodeIsRaised :
    ∃ s : State, s.status = some .scanning ∧ s.buf.readByte s.ip = some 0xC4 ∧ classify 0xC4 = none :=
  ⟨loaded [0xC4, 0x00], by decide⟩

theorem witness_RaiseLatchesTheErrorOnly :
    (loaded [0xFF]).err = none ∧
    ∃ t, step (loaded [0xFF]) = .next t ∧ t.err ≠ none := ⟨rfl, _, rfl, by decide⟩

theorem witness_LatchedErrorsAreExplained :
    (loaded [0xB8, 0x01]).err = none ∧
    ∃ t, step (loaded [0xB8, 0x01]) = .next t ∧ t.err = some ⟨.outOfRange, 1, 0xB8⟩ := ⟨rfl, _, rfl, by decide⟩

theorem witness_TerminalStatesDoNotChange :
    (loaded []).ended ∧ ((loaded [0xFF]).raise ⟨.unsupportedOpcode, 0, 0xFF⟩).ended := ⟨.inl rfl, .inr rfl⟩

theorem witness_SuccessfulStepAdvancesByTheLength :
    (loaded [0xB0, 0x01]).status = some .scanning ∧
    (∃ t, step (loaded [0xB0, 0x01]) = .next t ∧ t.err = none) ∧
    (loaded [0xB0]).status = some .scanning ∧ ∃ t, step (loaded [0xB0]) = .next t ∧ t.err ≠ none :=
  ⟨rfl, ⟨_, rfl, by decide⟩, rfl, _, rfl, by decide⟩

theorem witness_EveryRunStateHasANextState :
    ((loaded [0xFF]).raise ⟨.unsupportedOpcode, 0, 0xFF⟩).err ≠ none ∧ (loaded []).ip ≤ (loaded []).buf.size :=
  by decide

theorem witness_IpPastTheEndFaults :
    (⟨1, none, [], ⟨0, []⟩⟩ : State).err = none ∧ (⟨1, none, [], ⟨0, []⟩⟩ : State).buf.size < (⟨1, none, [], ⟨0, []⟩⟩ : State).ip :=
  by decide

theorem witness_ExecMemoryFormsAppend :
    (0 : Idx) ≠ 6 ∧ (5 : Idx) ≠ 6 ∧ (7 : Idx) ≠ 6 := by decide

theorem witness_ExecImmToRmAppends :
    (∃ c : Byte, Imm.imm8 0x80 = .imm8 c ∧ Width.narrow = .narrow ∧ (-128 : Int) = c.toInt ∧ 1 = 1) ∧
    ∃ c : Word, Imm.imm16 0x8000 = .imm16 c ∧ Width.wide = .wide ∧ (-32768 : Int) = c.toInt ∧ 2 = 2 :=
  ⟨⟨0x80, by decide⟩, 0x8000, by decide⟩

theorem witness_ExecCompletesExactlyWhenWellFormed :
    WellFormed (.movREa .wide 6 7) = true ∧ WellFormed (.movREa .wide 7 6) = false := by decide

theorem witness_ExecFrame :
    ∃ t, exec (.movAddrR .wide 0 0xFFFF) (loaded [0x89, 0x06, 0xFF, 0xFF]) = .next t := ⟨_, rfl⟩

theorem witness_OutIsAppendOnly :
    (loaded [0x88, 0xC0]).status = some .scanning ∧
    (∃ t, step (loaded [0x88, 0xC0]) = .next t ∧ t.err = none) ∧
    (loaded [0x88]).status = some .scanning ∧ ∃ t, step (loaded [0x88]) = .next t ∧ t.err ≠ none :=
  ⟨rfl, ⟨_, rfl, by decide⟩, rfl, _, rfl, by decide⟩

theorem witness_LoadedBytesStayReadable :
    ∃ t, Host.Core.run Sys2Proof.core 1 (State.reset.load [0xB0, 0x01]) = .next t ∧ t.ip = 2 := ⟨_, rfl, by decide⟩

theorem witness_StepKeepsTheInvariant :
    (loaded [0xB0, 0x80]).Inv ∧ ∃ t, step (loaded [0xB0, 0x80]) = .next t ∧ t.ip = 2 :=
  ⟨⟨by decide, by decide, rfl, nofun, nofun, nofun⟩, _, rfl, by decide⟩

theorem witness_RunEndsWithinHalfTheBuffer :
    (loaded [0xB0, 0x80]).ip ≤ (loaded [0xB0, 0x80]).buf.size := by decide

theorem witness_EmittedLengthsSumToIp :
    (∃ t, Host.Core.run Sys2Proof.core 1 (State.reset.load [0xB0, 0x01]) = .next t ∧ t.status = some .done) ∧
    ∃ t, Host.Core.run Sys2Proof.core 1 (State.reset.load [0xFF]) = .next t ∧ t.status = some .failed :=
  ⟨⟨_, rfl, by decide⟩, _, rfl, by decide⟩

theorem witness_EarlierOutputIsTheBeginning :
    ∃ t u, Host.Core.run Sys2Proof.core 0 (loaded [0xB0, 0x01]) = .next t ∧
      Host.Core.run Sys2Proof.core (0 + 1) (loaded [0xB0, 0x01]) = .next u ∧ t.out.length < u.out.length :=
  ⟨_, _, rfl, rfl, by decide⟩

theorem witness_ResetStartsANewRun :
    0 < (loaded [0xFF]).buf.size ∧ (loaded []).buf.size = 0 := by decide

theorem witness_StatusFollowsTheState :
    ((loaded [0xFF]).raise ⟨.unsupportedOpcode, 0, 0xFF⟩).err ≠ none ∧
    ((loaded [0xFF]).err = none ∧ (loaded [0xFF]).ip < (loaded [0xFF]).buf.size) ∧
    (loaded []).err = none ∧ (loaded []).ip = (loaded []).buf.size := by decide

theorem witness_StatusRegisterView :
    (loaded []).err = none ∧
    ((loaded [0xFF]).raise ⟨.unsupportedOpcode, 0, 0xFF⟩).err = some ⟨.unsupportedOpcode, 0, 0xFF⟩ := by decide

theorem witness_DirectionBitSwapsTheOperands :
    classify 0x8B = some .rmReg ∧ decodeBytes (0x8B :: [0x06]) = .error (.outOfRange 2) ∧
    decodeBytes (0x8B :: [0x0C]) = .ok (.movREa .wide 1 4) := by decide

theorem witness_RegisterFieldOfFamilyThreeIsIgnored :
    classify 0xC6 = some .immToRm ∧ (0xFB : Byte) &&& 0xC7 = 0xC3 &&& 0xC7 ∧
    decodeBytes (0xC6 :: 0xFB :: [0x05]) = .ok (.movRImm 7 3 (.imm8 5)) ∧
    decodeBytes (0xC6 :: 0xFB :: []) = .error (.outOfRange 2) := by decide

theorem witness_RegisterNamesAreTheSixteen :
    regName .wide 4 = regName .wide 4 := by decide

theorem witness_MemoryOperandText :
    (["bx+si", "bx+di", "bp+si", "bp+di", "si", "di", "bp", "bx"].map ascii)[(7 : Idx).toNat]? = some (ascii "bx") ∧
    (7 : Idx) ≠ 6 ∧ (0 : Int) ≤ 0 ∧ (-1 : Int) < 0 := by decide

theorem witness_DecIsDecimal :
    0 < 1 ∧ (-32768 : Int) ≤ -32768 ∧ (65535 : Int) ≤ 65535 := by decide

theorem witness_LineLengthBounds :
    ∃ t, exec (.movEaDisp16Imm 0 2 0x8000 (.imm16 0x8000)) State.reset = .next t := ⟨_, rfl⟩

theorem witness_ImmToRegLinesDiffer :
    ∃ t u e f, classify ((encode (.movR8Imm8 0 0xFF)).headD 0) = some .immToReg ∧
    classify ((encode (.movR16Imm16 0 0xFFFF)).headD 0) = some .immToReg ∧ Instr.movR8Imm8 0 0xFF ≠ .movR16Imm16 0 0xFFFF ∧
    exec (.movR8Imm8 0 0xFF) State.reset = .next t ∧ exec (.movR16Imm16 0 0xFFFF) State.reset = .next u ∧
    t.out = State.reset.out ++ [e] ∧ u.out = State.reset.out ++ [f] :=
  ⟨_, _, _, _, by decide, by decide, by decide, rfl, rfl, rfl, rfl⟩

theorem witness_EquivalentEncodingsPrintAlike :
    (Instr.movAccAddr .wide 0x1000, Instr.movRAddr .wide 0 0x1000) ∈
    [(Instr.movRRRegSrc .wide 3 0, Instr.movRRRegDst .wide 0 3), (.movR8Imm8 3 5, .movRImm 7 3 (.imm8 5)),
      (.movR16Imm16 3 0x1000, .movRImm 7 3 (.imm16 0x1000)), (.movAccAddr .wide 0x1000, .movRAddr .wide 0 0x1000),
      (.movAddrAcc .wide 0x1000, .movAddrR .wide 0 0x1000)] := by decide

theorem witness_FormatterMatchesTheRecordedOperand :
    RmForm.expr 7 ≠ .expr 6 ∧ RmForm.direct 0xFFFF ≠ .expr 6 := by decide

end Sys2Proof.Tests
end

section
/-! PROOF. The state of 10_state.md: what a step in `Scanning` does to `out` (R25), reset (R31) and the status (R23). -/

namespace Sys2Proof.Machine

/-- Everything a step in `Scanning` can do: append the fetched instruction's record with its text and advance, or latch the
error of the bytes at `ip` (R180). -/
theorem step_next_of_scanning {s t : State} (hs : s.status = some .scanning) (h : step s = .next t) :
    (∃ i x, s.fetch = .ok i ∧ recordText (recordOf i s.ip) = some x ∧
      t = (s.emit (recordOf i s.ip) x).advance i.length) ∨
    (∃ r, s.fetch = .error r ∧ t = s.raise (s.errorOf r)) := by
  obtain ⟨hend, -⟩ | ⟨-, i, hi, hx⟩ | ⟨-, r, hr, ht⟩ := step_next h
  · simp [hs] at hend
  · obtain ⟨x, hx, ht⟩ := exec_next hx
    exact .inl ⟨i, x, hi, hx, ht⟩
  · exact .inr ⟨r, hr, ht⟩

/-- Settles O40: a step that decodes keeps `err = none` and appends one element; a step that raises latches an error and
leaves `out` alone. -/
theorem outIsAppendOnly : Obligations.OutIsAppendOnly := by
  unfold Obligations.OutIsAppendOnly
  intro s t hs h
  have hnone : s.err = none := (s.status_scanning_iff.mp hs).1
  obtain ⟨i, x, -, hx, rfl⟩ | ⟨r, -, rfl⟩ := step_next_of_scanning hs h
  · exact ⟨fun _ => ⟨recordOf i s.ip, x, hx, rfl, rfl⟩, fun hfail => absurd hnone hfail⟩
  · exact ⟨fun hok => by simp at hok, fun _ => s.raise_out _⟩

/-- Settles O47: the fields after reset are those of R31, and the status is read off them. -/
theorem resetStartsANewRun : Obligations.ResetStartsANewRun := by
  unfold Obligations.ResetStartsANewRun
  intro s
  exact ⟨rfl, fun hpos => s.applyReset.status_scanning_iff.mpr ⟨rfl, hpos⟩,
    fun hzero => s.applyReset.status_done_iff.mpr ⟨rfl, hzero.symm⟩, rfl⟩

/-- Settles O48: the three characterisations of the status, each from right to left. -/
theorem statusFollowsTheState : Obligations.StatusFollowsTheState := by
  unfold Obligations.StatusFollowsTheState
  intro s
  exact ⟨s.status_failed_iff.mpr, fun hnone hlt => s.status_scanning_iff.mpr ⟨hnone, hlt⟩,
    fun hnone heq => s.status_done_iff.mpr ⟨hnone, heq⟩⟩

end Sys2Proof.Machine
end

section
/-! SUPPORT. Everything a successful decode can be: which family's decoder answered, and what it read (R94, R120, R130,
R150, R170). -/

namespace Sys2Proof

/-- A family 1 decode gives one of its two forms, by the Word bit (R120). -/
theorem decodeImmToReg_ok {rd : Reader} {b0 : Byte} {i : Instr} (h : decodeImmToReg rd b0 = .ok i) :
    (∃ v, immToRegWidth b0 = .narrow ∧ rd.readByte 1 = .ok v ∧ i = .movR8Imm8 (lowField b0) v) ∨
    (∃ v, immToRegWidth b0 = .wide ∧ rd.readWord 1 = .ok v ∧ i = .movR16Imm16 (lowField b0) v) := by
  unfold decodeImmToReg at h
  split at h
  next hw =>
    obtain ⟨v, hv, rfl⟩ := except_map_ok h
    exact .inl ⟨v, hw, hv, rfl⟩
  next hw =>
    obtain ⟨v, hv, rfl⟩ := except_map_ok h
    exact .inr ⟨v, hw, hv, rfl⟩

/-- A family 2 decode has read a mod byte and its register/memory operand, and orders the operands by the Direction bit
(R130). -/
theorem decodeRmReg_ok {rd : Reader} {b0 : Byte} {i : Instr} (h : decodeRmReg rd b0 = .ok i) :
    ∃ b1 m, rd.byte 1 = some b1 ∧ decodeRm rd b1 (modeField b1) (lowField b1) = .ok m ∧
      i = if directionField b0 then instrRegFromRm (lowWidth b0) (regField b1) m
        else instrRmFromReg (lowWidth b0) (regField b1) m := by
  obtain ⟨b1, hb1, h⟩ := except_bind_ok h
  obtain ⟨m, hm, h⟩ := except_bind_ok h
  refine ⟨b1, m, Reader.readByte_eq_ok_iff.mp hb1, hm, ?_⟩
  split at h
  next hd =>
    cases h
    rw [if_pos hd]
  next hd =>
    cases h
    rw [if_neg hd]

/-- A family 3 decode has read a mod byte, its register/memory operand and an immediate at `2 + DS` (R150). -/
theorem decodeImmToRm_ok {rd : Reader} {b0 : Byte} {i : Instr} (h : decodeImmToRm rd b0 = .ok i) :
    ∃ b1 m imm, rd.byte 1 = some b1 ∧ decodeRm rd b1 (modeField b1) (lowField b1) = .ok m ∧
      rd.readImm (lowWidth b0) (2 + m.dispSize) = .ok imm ∧ i = instrImmToRm (regField b1) imm m := by
  obtain ⟨b1, hb1, h⟩ := except_bind_ok h
  obtain ⟨m, hm, h⟩ := except_bind_ok h
  obtain ⟨imm, himm, h⟩ := except_bind_ok h
  cases h
  exact ⟨b1, m, imm, Reader.readByte_eq_ok_iff.mp hb1, hm, himm, rfl⟩

/-- A decode that succeeds classified the first byte and is its family's decode (R94). -/
theorem decode_ok {rd : Reader} {i : Instr} (h : decode rd = .ok i) :
    ∃ b0, rd.byte 0 = some b0 ∧
      ((classify b0 = some .immToReg ∧ decodeImmToReg rd b0 = .ok i) ∨
       (classify b0 = some .rmReg ∧ decodeRmReg rd b0 = .ok i) ∨
       (classify b0 = some .immToRm ∧ decodeImmToRm rd b0 = .ok i) ∨
       (classify b0 = some .memToAcc ∧ ∃ a, rd.readWord 1 = .ok a ∧ i = .movAccAddr (lowWidth b0) a) ∨
       (classify b0 = some .accToMem ∧ ∃ a, rd.readWord 1 = .ok a ∧ i = .movAddrAcc (lowWidth b0) a)) := by
  obtain ⟨b0, hb0, h⟩ := except_bind_ok h
  refine ⟨b0, Reader.readByte_eq_ok_iff.mp hb0, ?_⟩
  split at h
  next => cases h
  next hc => exact .inl ⟨hc, h⟩
  next hc => exact .inr (.inl ⟨hc, h⟩)
  next hc => exact .inr (.inr (.inl ⟨hc, h⟩))
  next hc =>
    obtain ⟨a, ha, rfl⟩ := except_map_ok h
    exact .inr (.inr (.inr (.inl ⟨hc, a, ha, rfl⟩)))
  next hc =>
    obtain ⟨a, ha, rfl⟩ := except_map_ok h
    exact .inr (.inr (.inr (.inr ⟨hc, a, ha, rfl⟩)))

end Sys2Proof
end

section
/-! PROOF. The length table (30_encoding.md R70): the row of each family, the length of what each family's decoder gives,
and the last byte it reads. -/

namespace Sys2Proof

open Sys2Proof.Claims

/-! ### The rows of the table -/

/-- The displacement/address size `DS` read off the mod byte alone (R69), as `lengthRow` computes it. -/
def modByteDispSize (b1 : Byte) : Nat :=
  if b1.toNat / 64 = 3 then 0
  else if b1.toNat / 64 = 0 then (if b1.toNat % 8 = 6 then 2 else 0)
  else b1.toNat / 64

/-- The table with `DS` by its name. -/
theorem lengthRow_eq (b0 b1 : Byte) :
    lengthRow b0 b1 =
      if 0xB0 ≤ b0.toNat ∧ b0.toNat ≤ 0xBF then 2 + b0.toNat / 8 % 2
      else if 0x88 ≤ b0.toNat ∧ b0.toNat ≤ 0x8B then 2 + modByteDispSize b1
      else if b0.toNat = 0xC6 ∨ b0.toNat = 0xC7 then 3 + modByteDispSize b1 + b0.toNat % 2
      else 3 := rfl

theorem modByteDispSize_modByteOf (mode : BitVec 2) (reg rm : Idx) :
    modByteDispSize (modByteOf mode reg rm) =
      if mode = 3 then 0 else if mode = 0 then (if rm = directAddressRm then 2 else 0) else mode.toNat := by
  revert mode reg rm; decide

theorem modByteDispSize_le (b1 : Byte) : modByteDispSize b1 ≤ 2 := by
  have := b1.isLt
  unfold modByteDispSize
  split_ifs <;> omega

theorem lengthRow_immToReg {b0 : Byte} (b1 : Byte) (hc : classify b0 = some .immToReg) :
    lengthRow b0 b1 = 2 + (immToRegWidth b0).toNat := by
  have ⟨hrange, hw⟩ : (0xB0 ≤ b0.toNat ∧ b0.toNat ≤ 0xBF) ∧ b0.toNat / 8 % 2 = (immToRegWidth b0).toNat := by
    revert b0; decide
  rw [lengthRow_eq, if_pos hrange, hw]

theorem lengthRow_rmReg {b0 : Byte} (b1 : Byte) (hc : classify b0 = some .rmReg) :
    lengthRow b0 b1 = 2 + modByteDispSize b1 := by
  have hrange : 0x88 ≤ b0.toNat ∧ b0.toNat ≤ 0x8B := by revert b0; decide
  rw [lengthRow_eq, if_neg (by omega), if_pos hrange]

theorem lengthRow_immToRm {b0 : Byte} (b1 : Byte) (hc : classify b0 = some .immToRm) :
    lengthRow b0 b1 = 2 + modByteDispSize b1 + immSize (lowWidth b0) := by
  have ⟨hop, hw⟩ : (b0.toNat = 0xC6 ∨ b0.toNat = 0xC7) ∧ b0.toNat % 2 = (lowWidth b0).toNat := by revert b0; decide
  rw [lengthRow_eq, if_neg (by omega), if_neg (by omega), if_pos hop, hw, immSize]
  omega

theorem lengthRow_acc {b0 : Byte} (b1 : Byte) (hc : classify b0 = some .memToAcc ∨ classify b0 = some .accToMem) :
    lengthRow b0 b1 = 3 := by
  have hrange : 0xA0 ≤ b0.toNat ∧ b0.toNat ≤ 0xA3 := by revert b0; decide
  rw [lengthRow_eq, if_neg (by omega), if_neg (by omega), if_neg (by omega)]

theorem lengthRow_bounds (b0 b1 : Byte) : 2 ≤ lengthRow b0 b1 ∧ lengthRow b0 b1 ≤ 6 := by
  have := modByteDispSize_le b1
  rw [lengthRow_eq]
  split_ifs <;> omega

/-! ### The length of what is decoded -/

/-- The operand decoded takes as many bytes after the mod byte as the mod byte says. -/
theorem decodeRm_dispSize {rd : Reader} {b1 : Byte} {m : RmForm}
    (h : decodeRm rd b1 (modeField b1) (lowField b1) = .ok m) : m.dispSize = modByteDispSize b1 := by
  obtain ⟨reg, rm, rfl | rfl | rfl | rfl⟩ := modByte_cases b1 <;>
    simp [decodeRm] at h <;> rw [modByteDispSize_modByteOf]
  · split at h
    next hrm =>
      obtain ⟨a, -, rfl⟩ := except_map_ok h
      simp [RmForm.dispSize, hrm]
    next hrm =>
      cases h
      simp [RmForm.dispSize, hrm]
  · obtain ⟨d, -, rfl⟩ := except_map_ok h
    rfl
  · obtain ⟨d, -, rfl⟩ := except_map_ok h
    rfl
  · cases h
    rfl

/-- Direction does not change the length, whatever the form. -/
theorem length_rmReg (dir : Bool) (w : Width) (reg : Idx) (m : RmForm) :
    (if dir then instrRegFromRm w reg m else instrRmFromReg w reg m).length = 2 + m.dispSize := by
  cases dir <;> cases m <;> rfl

theorem length_immToRm (x : Idx) (imm : Imm) (m : RmForm) :
    (instrImmToRm x imm m).length = 2 + m.dispSize + immSize imm.width := by
  cases m <;> rfl

/-- What is decoded has the length of the row of its first two bytes. -/
theorem decode_length {rd : Reader} {b0 b1 : Byte} {i : Instr} (h0 : rd.byte 0 = some b0) (h1 : rd.byte 1 = some b1)
    (h : decode rd = .ok i) : i.length = lengthRow b0 b1 := by
  obtain ⟨_, e0, h⟩ := decode_ok h
  obtain rfl := Option.some.inj (h0.symm.trans e0)
  obtain ⟨hc, h⟩ | ⟨hc, h⟩ | ⟨hc, h⟩ | ⟨hc, a, -, rfl⟩ | ⟨hc, a, -, rfl⟩ := h
  · obtain ⟨v, hw, -, rfl⟩ | ⟨v, hw, -, rfl⟩ := decodeImmToReg_ok h <;> rw [lengthRow_immToReg b1 hc, hw] <;> rfl
  · obtain ⟨_, m, e1, hm, rfl⟩ := decodeRmReg_ok h
    obtain rfl := Option.some.inj (h1.symm.trans e1)
    rw [lengthRow_rmReg b1 hc, length_rmReg, decodeRm_dispSize hm]
  · obtain ⟨_, m, imm, e1, hm, himm, rfl⟩ := decodeImmToRm_ok h
    obtain rfl := Option.some.inj (h1.symm.trans e1)
    rw [lengthRow_immToRm b1 hc, length_immToRm, decodeRm_dispSize hm, Reader.readImm_width himm]
  · exact (lengthRow_acc b1 (.inl hc)).symm
  · exact (lengthRow_acc b1 (.inr hc)).symm

/-! ### The last byte of what is decoded -/

/-- Where given bytes stand, each of them can be read. -/
theorem Reader.byte_isSome_of_bytes {rd : Reader} {k j : Nat} {l : List Byte} (hj : j < l.length)
    (h : ∀ j, j < l.length → rd.byte (k + j) = l[j]?) : (rd.byte (k + j)).isSome := by
  rw [h j hj, List.getElem?_eq_getElem hj, Option.isSome_some]

theorem Reader.Coherent.readWord_lastByte {rd : Reader} (c : rd.Coherent) {k : Nat} {w : Word}
    (h : rd.readWord k = .ok w) : (rd.byte (k + 1)).isSome :=
  Option.isSome_of_eq_some (c.readWord_eq_ok_iff.mp h).2

theorem Reader.Coherent.readImm_lastByte {rd : Reader} (c : rd.Coherent) {w : Width} {k : Nat} {imm : Imm}
    (h : rd.readImm w k = .ok imm) : (rd.byte (k + w.toNat)).isSome := by
  obtain ⟨rfl, hbytes⟩ := c.readImm_ok h
  exact Reader.byte_isSome_of_bytes (by cases imm <;> simp [Imm.width, Width.toNat, Imm.bytes, wordBytes]) hbytes

/-- The last byte of the operand is the mod byte itself when there is no displacement. -/
theorem decodeRm_lastByte {rd : Reader} (c : rd.Coherent) {b1 : Byte} {m : RmForm} (hb : rd.byte 1 = some b1)
    (h : decodeRm rd b1 (modeField b1) (lowField b1) = .ok m) : (rd.byte (1 + m.dispSize)).isSome :=
  Reader.byte_isSome_of_bytes (by rw [RmForm.bytes_length]; omega) (decodeRm_ok c hb h).2

/-- The last byte of what is decoded has been read. -/
theorem decode_lastByte {rd : Reader} (c : rd.Coherent) {i : Instr} (h : decode rd = .ok i) :
    ∃ k, i.length = k + 1 ∧ (rd.byte k).isSome := by
  obtain ⟨b0, -, ⟨-, h⟩ | ⟨-, h⟩ | ⟨-, h⟩ | ⟨-, a, ha, rfl⟩ | ⟨-, a, ha, rfl⟩⟩ := decode_ok h
  · obtain ⟨v, -, hv, rfl⟩ | ⟨v, -, hv, rfl⟩ := decodeImmToReg_ok h
    · exact ⟨1, rfl, Option.isSome_of_eq_some (Reader.readByte_eq_ok_iff.mp hv)⟩
    · exact ⟨2, rfl, c.readWord_lastByte hv⟩
  · obtain ⟨b1, m, hb1, hm, rfl⟩ := decodeRmReg_ok h
    exact ⟨1 + m.dispSize, by rw [length_rmReg]; omega, decodeRm_lastByte c hb1 hm⟩
  · obtain ⟨b1, m, imm, -, -, himm, rfl⟩ := decodeImmToRm_ok h
    refine ⟨2 + m.dispSize + (lowWidth b0).toNat, ?_, c.readImm_lastByte himm⟩
    rw [length_immToRm, Reader.readImm_width himm, immSize]
    omega
  · exact ⟨2, rfl, c.readWord_lastByte ha⟩
  · exact ⟨2, rfl, c.readWord_lastByte ha⟩

/-- What is decoded from a list lies inside it (R43, R44). -/
theorem decodeBytes_length_le {bs : List Byte} {i : Instr} (h : decodeBytes bs = .ok i) : i.length ≤ bs.length := by
  obtain ⟨k, hk, hread⟩ := decode_lastByte (listReader_coherent bs) h
  have hlt : k < bs.length := by simpa using hread
  omega

/-- Settles O6: the row by the family of the first byte, the bounds from the row, the last clause from the last byte
read. -/
theorem lengthIsTheTableRow : Obligations.LengthIsTheTableRow := by
  unfold Obligations.LengthIsTheTableRow
  intro b0 b1 rest i h
  have hrow : i.length = lengthRow b0 b1 := decode_length rfl rfl h
  have hbounds := lengthRow_bounds b0 b1
  rw [← hrow] at hbounds
  exact ⟨hrow, hbounds.1, hbounds.2, decodeBytes_length_le h⟩

end Sys2Proof
end

section
/-! PROOF. The opcode bytes in no family (40_opcode_classifier.md R93): they are rejected before any other read, and how
many they are. -/

namespace Sys2Proof

/-- A first byte in no family is rejected whatever the reader gives after it (R93, R94). -/
theorem decode_unsupportedOpcode {rd : Reader} {b0 : Byte} (hb : rd.byte 0 = some b0) (hc : classify b0 = none) :
    decode rd = .error (.unsupportedOpcode b0) := by
  have hread : rd.readByte 0 = .ok b0 := Reader.readByte_some hb
  simp [decode, hread, hc, bind, Except.bind]

/-- The count of R93, the complement of R74's 26. -/
theorem length_unclassified_bytes :
    ((List.range 256).filter fun n => (classify (BitVec.ofNat 8 n)).isNone).length = 230 := by rfl

end Sys2Proof

namespace Sys2Proof.Machine

open Sys2Proof.Claims

/-- A step in `Scanning` at a byte in no family latches UnsupportedOpcode with `ip` and the byte (R93). -/
theorem step_unsupportedOpcode {s : State} {b : Byte} (hs : s.status = some .scanning)
    (hb : s.buf.readByte s.ip = some b) (hc : classify b = none) :
    step s = .next (raised s .unsupportedOpcode s.ip b) :=
  have hfetch : s.fetch = .error (.unsupportedOpcode b) := decode_unsupportedOpcode hb hc
  step_of_fetch_error hs hfetch

/-- Settles O26: the fetch is rejected on its first byte, and the step latches that rejection. -/
theorem unsupportedOpcodeIsRaised : Obligations.UnsupportedOpcodeIsRaised := by
  unfold Obligations.UnsupportedOpcodeIsRaised
  exact ⟨fun _ _ => step_unsupportedOpcode, length_unclassified_bytes⟩

end Sys2Proof.Machine
end

section
/-! PROOF. The name tables (41_name_tables.md): the register names (R100), the text of a memory operand (R103, R106) and
the decimal rendering (R108), whose digits are Mathlib's `Nat.digits 10`. -/

namespace Sys2Proof.Machine

open Sys2Proof.Claims

/-! ### Dec -/

theorem dec_natCast (n : Nat) : dec n = decNat n := by
  rw [dec, if_neg (by omega), Int.natAbs_natCast]

theorem dec_of_neg {n : Int} (h : n < 0) : dec n = ascii "-" ++ decNat n.natAbs := by
  rw [dec, if_pos h]

/-- The text of a positive number is the codes of its base-10 digits, which Mathlib lists least significant first. -/
theorem decNat_eq_digits {n : Nat} (h : 0 < n) : decNat n = (Nat.digits 10 n).reverse.map digitChar := by
  induction n using Nat.strong_induction_on with
  | h n ih =>
    rcases Nat.lt_or_ge n 10 with hlt | hge
    · rw [decNat_of_lt hlt, Nat.digits_of_lt 10 n h.ne' hlt]
      rfl
    · rw [decNat_of_ge hge, ih (n / 10) (by omega) (by omega), Nat.digits_def' (by omega) h, List.reverse_cons,
        List.map_append]
      rfl

/-- One more character multiplies the value by ten and adds its digit. -/
theorem digitsValue_append_digitChar (t : Text) {d : Nat} (h : d < 10) :
    digitsValue (t ++ [digitChar d]) = 10 * digitsValue t + d := by
  simp [digitsValue, digitChar_toNat h]

/-- Reading the codes of digits gives the number the digits stand for. -/
theorem digitsValue_map_digitChar {ds : List Nat} (h : ∀ d ∈ ds, d < 10) :
    digitsValue (ds.reverse.map digitChar) = Nat.ofDigits 10 ds := by
  induction ds with
  | nil => rfl
  | cons d ds ih =>
    obtain ⟨hd, hds⟩ := List.forall_mem_cons.mp h
    rw [List.reverse_cons, List.map_append, List.map_singleton, digitsValue_append_digitChar _ hd, ih hds,
      Nat.ofDigits_cons, Nat.add_comm]

/-- The digits of the text stand for the number. -/
theorem digitsValue_decNat {n : Nat} (h : 0 < n) : digitsValue (decNat n) = n := by
  rw [decNat_eq_digits h, digitsValue_map_digitChar fun _ => Nat.digits_lt_base (by omega), Nat.ofDigits_digits]

theorem isDigit_of_mem_decNat {n : Nat} (h : 0 < n) {c : Byte} (hc : c ∈ decNat n) :
    0x30 ≤ c.toNat ∧ c.toNat ≤ 0x39 := by
  rw [decNat_eq_digits h, List.mem_map] at hc
  obtain ⟨d, hd, rfl⟩ := hc
  have hlt : d < 10 := Nat.digits_lt_base (by omega) (List.mem_reverse.mp hd)
  rw [digitChar_toNat hlt]
  omega

/-- Only the digit 0 prints as `0`. -/
theorem digitChar_ne_zero {d : Nat} (h : d < 10) (hne : d ≠ 0) : digitChar d ≠ 0x30 := by
  intro hzero
  have hcode : 0x30 + d = 0x30 := digitChar_toNat h ▸ congrArg BitVec.toNat hzero
  omega

/-- No leading zero: the most significant digit of a positive number is not zero. -/
theorem decNat_head?_ne_zero {n : Nat} (h : 0 < n) : (decNat n).head? ≠ some 0x30 := by
  have hne : Nat.digits 10 n ≠ [] := Nat.digits_ne_nil_iff_ne_zero.mpr h.ne'
  have hlead : (Nat.digits 10 n).getLast hne ≠ 0 := Nat.getLast_digit_ne_zero 10 h.ne'
  have hlt : (Nat.digits 10 n).getLast hne < 10 := Nat.digits_lt_base (by omega) (List.getLast_mem hne)
  rw [decNat_eq_digits h, List.head?_map, List.head?_reverse, List.getLast?_eq_getLast_of_ne_nil hne, Option.map_some]
  exact fun hzero => digitChar_ne_zero hlt hlead (Option.some.inj hzero)

theorem decNat_ne_nil {n : Nat} (h : 0 < n) : decNat n ≠ [] := by
  simpa [decNat_eq_digits h, Nat.digits_ne_nil_iff_ne_zero] using h.ne'

/-- A minus sign before a negative number. -/
theorem dec_neg_natCast {n : Nat} (h : 0 < n) : dec (-(n : Int)) = ascii "-" ++ dec n := by
  rw [dec_of_neg (by omega), Int.natAbs_neg, Int.natAbs_natCast, dec_natCast]

/-- The printed range takes 1 to 6 characters: up to five digits, and a sign when negative. -/
theorem dec_length {n : Int} (hlo : -32768 ≤ n) (hhi : n ≤ 65535) : 1 ≤ (dec n).length ∧ (dec n).length ≤ 6 := by
  rcases lt_or_ge n 0 with hneg | hnonneg
  · have hdigits := decNat_length 4 n.natAbs (by omega)
    have hsign : (ascii "-").length = 1 := rfl
    rw [dec_of_neg hneg, List.length_append]
    omega
  · have hdigits := dec_length_unsigned hnonneg hhi
    omega

/-- Settles O54: the text is `Nat.digits 10` read backwards, so the value, the digits and the leading one are those of
the number. -/
theorem decIsDecimal : Obligations.DecIsDecimal := by
  unfold Obligations.DecIsDecimal
  refine ⟨rfl, fun n hn => ?_, fun n => dec_length⟩
  have hsign := dec_neg_natCast hn
  rw [dec_natCast] at hsign ⊢
  exact ⟨digitsValue_decNat hn, fun _ => isDigit_of_mem_decNat hn, decNat_head?_ne_zero hn, decNat_ne_nil hn, hsign⟩

/-! ### Register names -/

/-- Names differ when their width or their index does (R101). -/
theorem regName_injective {w v : Width} {i j : Idx} (h : regName w i = regName v j) : w = v ∧ i = j := by
  cases w <;> cases v <;> revert i j <;> decide

/-- Settles O52: the table row by row, then that its names are distinct pairs. -/
theorem registerNamesAreTheSixteen : Obligations.RegisterNamesAreTheSixteen := by
  unfold Obligations.RegisterNamesAreTheSixteen
  exact ⟨by decide, fun _ _ _ _ => regName_injective, regName_length⟩

/-! ### Memory operands -/

/-- The table of R103, index by index. -/
theorem eaName_disp_eq_getElem? (rm : Idx) :
    eaName rm true = (["bx+si", "bx+di", "bp+si", "bp+di", "si", "di", "bp", "bx"].map ascii)[rm.toNat]? := by
  revert rm; decide

/-- Only index 6 reads differently without a displacement (R104). -/
theorem eaName_noDisp {rm : Idx} (h : rm ≠ 6) : eaName rm false = eaName rm true := by
  revert rm; decide

theorem memText_none {rm : Idx} {e : Text} (he : eaName rm false = some e) :
    memText rm none = some (ascii "[" ++ e ++ ascii "]") := by
  rw [memText, he]
  rfl

theorem memText_some {rm : Idx} {e : Text} (he : eaName rm true = some e) (d : Int) :
    memText rm (some d) = some (ascii "[" ++ e ++ dispText d ++ ascii "]") := by
  rw [memText, he, Option.map_some, bracketed, List.append_assoc (ascii "[") e]

theorem dispText_of_nonneg {d : Int} (h : 0 ≤ d) : dispText d = ascii "+" ++ dec d := if_pos h

theorem dispText_of_neg {d : Int} (h : d < 0) : dispText d = ascii "-" ++ dec (-d) := if_neg (Int.not_le.mpr h)

/-- Settles O53: the expression is the table's entry, and the sign of the displacement chooses the joining sign. -/
theorem memoryOperandText : Obligations.MemoryOperandText := by
  unfold Obligations.MemoryOperandText
  intro rm e he
  have hdisp : eaName rm true = some e := (eaName_disp_eq_getElem? rm).trans he
  refine ⟨fun hrm => memText_none ((eaName_noDisp hrm).trans hdisp), fun d => ⟨fun hd => ?_, fun hd => ?_⟩⟩
  · rw [memText_some hdisp, dispText_of_nonneg hd, List.append_assoc _ (ascii "+")]
  · rw [memText_some hdisp, dispText_of_neg hd, List.append_assoc _ (ascii "-")]

end Sys2Proof.Machine
end

section
/-! SUPPORT. A step in `Scanning` in the terms of the statements: what it emits for a decoded instruction, and the record it
latches for a read past the end (R181, R191, D10). -/

namespace Sys2Proof.Machine

open Sys2Proof.Claims

/-- A decoded instruction whose operands have texts is emitted: record, line and advance (R25, R180). -/
theorem step_emits {s : State} {i : Instr} {d o : Text} (hs : s.status = some .scanning) (hi : s.fetch = .ok i)
    (hd : operandText (destOf i) = some d) (ho : operandText (srcOf i) = some o) :
    step s = .next (emitted s (destOf i) (srcOf i) i.length (movLine d o)) := by
  have htext : recordText (recordOf i s.ip) = some (movLine d o) := recordText_of_texts hd ho
  rw [step_of_fetch_ok hs hi, exec_eq_completeMov]
  exact completeMov_of_text htext

/-- A read that fails `k` bytes into the instruction latches its own offset and the opcode byte. -/
theorem step_outOfRange {s : State} {b : Byte} {k : Nat} (hs : s.status = some .scanning)
    (hb : s.buf.readByte s.ip = some b) (hr : s.fetch = .error (.outOfRange k)) :
    step s = .next (raised s .outOfRange (s.ip + k) b) := by
  obtain ⟨-, rfl⟩ := Memory.readByte_eq_some_iff.mp hb
  exact step_of_fetch_error hs hr

@[simp] theorem immValue_imm8 (v : Byte) : immValue (.imm8 v) = v.toInt := signed16_sext16 v

@[simp] theorem immValue_imm16 (v : Word) : immValue (.imm16 v) = v.toInt := signed16_eq_toInt v

end Sys2Proof.Machine
end

section
/-! PROOF. Family 1, immediate to register (42_mov_imm_to_reg.md): the Word bit of the opcode byte `1011 w reg` chooses
between one immediate byte and one immediate word, read at offset 1. -/

namespace Sys2Proof

/-- A first byte of family 1 leaves the rest to that family's decoder (R94). -/
theorem decode_immToReg {rd : Reader} {b0 : Byte} (hb : rd.byte 0 = some b0) (hc : classify b0 = some .immToReg) :
    decode rd = decodeImmToReg rd b0 := by
  have hread : rd.readByte 0 = .ok b0 := Reader.readByte_some hb
  simp [decode, hread, hc, bind, Except.bind]

/-- Word bit 0: the byte at offset 1 is the immediate (R120). -/
theorem decode_opImmToReg_narrow {rd : Reader} {reg : Idx} (hb : rd.byte 0 = some (opImmToReg .narrow reg)) :
    decode rd = (rd.readByte 1).map (.movR8Imm8 reg) := by
  simp [decode_immToReg hb, decodeImmToReg]

/-- Word bit 1: the word at offset 1 is the immediate (R120). -/
theorem decode_opImmToReg_wide {rd : Reader} {reg : Idx} (hb : rd.byte 0 = some (opImmToReg .wide reg)) :
    decode rd = (rd.readWord 1).map (.movR16Imm16 reg) := by
  simp [decode_immToReg hb, decodeImmToReg]

/-- The opcode byte as R121 writes it, Word bit 0 among the fixed bits. -/
theorem opImmToReg_narrow_eq (reg : Idx) : opImmToReg .narrow reg = 0b10110#5 ++ reg := by
  revert reg; decide

/-- The opcode byte as R122 writes it, Word bit 1 among the fixed bits. -/
theorem opImmToReg_wide_eq (reg : Idx) : opImmToReg .wide reg = 0b10111#5 ++ reg := by
  revert reg; decide

end Sys2Proof

namespace Sys2Proof.Machine

/-- Settles O12: the fetch is the byte read at `ip + 1`; the step emits what it gives or latches its failure. -/
theorem movR8Imm8Rule : Obligations.MovR8Imm8Rule := by
  unfold Obligations.MovR8Imm8Rule
  intro s reg hs hb
  have hfetch : s.fetch = (s.reader.readByte 1).map (.movR8Imm8 reg) :=
    decode_opImmToReg_narrow (hb.trans (congrArg some (opImmToReg_narrow_eq reg).symm))
  refine ⟨fun v hv => ?_, fun hshort => ?_⟩
  · have hread : s.reader.readByte 1 = .ok v := Reader.readByte_some hv
    rw [hread] at hfetch
    rw [← immValue_imm8]
    exact step_emits hs hfetch rfl rfl
  · have hread : s.reader.readByte 1 = .error (.outOfRange 1) := Reader.readByte_none (Memory.readByte_of_ge hshort)
    rw [hread] at hfetch
    exact step_outOfRange hs hb hfetch

/-- Settles O13: the fetch is the word read at `ip + 1`, which needs both its bytes; the step emits what it gives or latches
its failure. -/
theorem movR16Imm16Rule : Obligations.MovR16Imm16Rule := by
  unfold Obligations.MovR16Imm16Rule
  intro s reg hs hb
  have hfetch : s.fetch = (s.reader.readWord 1).map (.movR16Imm16 reg) :=
    decode_opImmToReg_wide (hb.trans (congrArg some (opImmToReg_wide_eq reg).symm))
  refine ⟨fun lo hi hlo hhi => ?_, fun hshort => ?_⟩
  · have hread : s.reader.readWord 1 = .ok (hi ++ lo) :=
      Reader.readWord_some (s.reader_coherent.word_of_bytes 1 lo hi hlo hhi)
    rw [hread] at hfetch
    rw [← immValue_imm16]
    exact step_emits hs hfetch rfl rfl
  · have hread : s.reader.readWord 1 = .error (.outOfRange 1) := Reader.readWord_none (Memory.readWord_of_ge hshort)
    rw [hread] at hfetch
    exact step_outOfRange hs hb hfetch

end Sys2Proof.Machine
end

section
/-! PROOF. Family 2, register/memory to/from register (43_mov_rm_reg.md): the mod byte after an opcode byte
`100010 d w` chooses the register/memory operand, the Direction bit only which of the two operands is the destination
(R130). So one lemma gives the step for every operand, and two give it for a missing mod byte and a missing
displacement. -/

namespace Sys2Proof

/-- A first byte of family 2 leaves the rest to that family's decoder (R94). -/
theorem decode_rmReg {rd : Reader} {b0 : Byte} (hb : rd.byte 0 = some b0) (hc : classify b0 = some .rmReg) :
    decode rd = decodeRmReg rd b0 := by
  have hread : rd.readByte 0 = .ok b0 := Reader.readByte_some hb
  simp [decode, hread, hc, bind, Except.bind]

/-- The family 2 instruction with the given operands: the Direction bit chooses the destination (R130). -/
def instrByDirection (d : BitVec 1) (w : Width) (reg : Idx) (m : RmForm) : Instr :=
  if d = 1 then instrRegFromRm w reg m else instrRmFromReg w reg m

/-- The mod byte is read first: without it nothing else of family 2 is (R130). -/
theorem decode_opRmReg_noModByte {rd : Reader} {d : BitVec 1} {w : Width} (h0 : rd.byte 0 = some (opRmReg d w))
    (h1 : rd.byte 1 = none) : decode rd = .error (.outOfRange 1) := by
  have hread : rd.readByte 1 = .error (.outOfRange 1) := Reader.readByte_none h1
  simp [decode_rmReg h0, decodeRmReg, hread, bind, Except.bind]

/-- With a mod byte, a family 2 decode is the read of its register/memory operand (R130). -/
theorem decode_opRmReg_modByteOf {rd : Reader} {d : BitVec 1} {w : Width} {mode : BitVec 2} {reg rm : Idx}
    (h0 : rd.byte 0 = some (opRmReg d w)) (h1 : rd.byte 1 = some (modByteOf mode reg rm)) :
    decode rd = (decodeRm rd (modByteOf mode reg rm) mode.toNat rm).map (instrByDirection d w reg) := by
  have hread : rd.readByte 1 = .ok (modByteOf mode reg rm) := Reader.readByte_some h1
  rw [decode_rmReg h0 (classify_opRmReg d w)]
  cases hm : decodeRm rd (modByteOf mode reg rm) mode.toNat rm with
  | error r => simp [decodeRmReg, hread, hm, bind, Except.bind, Except.map]
  | ok m =>
    simp only [decodeRmReg, hread, bind, Except.bind, modeField_modByteOf, lowField_modByteOf, hm, dir_opRmReg,
      width_opRmReg, regField_modByteOf, beq_iff_eq, instrByDirection, Except.map]
    split <;> rfl

/-! ### The register/memory operand, mode by mode (R109) -/

theorem decodeRm_register (rd : Reader) (b1 : Byte) (rm : Idx) : decodeRm rd b1 3 rm = .ok (.register rm) := rfl

theorem decodeRm_expr (rd : Reader) (b1 : Byte) {rm : Idx} (h : rm ≠ directAddressRm) :
    decodeRm rd b1 0 rm = .ok (.expr rm) := if_neg h

theorem decodeRm_direct (rd : Reader) (b1 : Byte) :
    decodeRm rd b1 0 directAddressRm = (rd.readWord 2).map .direct := rfl

theorem decodeRm_disp8 (rd : Reader) (b1 : Byte) (rm : Idx) :
    decodeRm rd b1 1 rm = (rd.readByte 2).map (.disp8 rm) := rfl

theorem decodeRm_disp16 (rd : Reader) (b1 : Byte) (rm : Idx) :
    decodeRm rd b1 2 rm = (rd.readWord 2).map (.disp16 rm) := rfl

end Sys2Proof

namespace Sys2Proof.Machine

open Sys2Proof.Claims

/-- The word read at a relative offset is the two bytes there, the lower offset less significant (R44, R47). -/
theorem State.reader_readWord_of_bytes {s : State} {k : Nat} {lo hi : Byte} (hlo : s.buf.readByte (s.ip + k) = some lo)
    (hhi : s.buf.readByte (s.ip + k + 1) = some hi) : s.reader.readWord k = .ok (hi ++ lo) :=
  Reader.readWord_some (s.reader_coherent.word_of_bytes k lo hi hlo hhi)

/-- The word read fails as a whole, at its own offset, when its high byte does not exist (R44, R191). -/
theorem State.reader_readWord_of_ge {s : State} {k : Nat} (h : s.buf.size ≤ s.ip + k + 1) :
    s.reader.readWord k = .error (.outOfRange k) :=
  Reader.readWord_none (Memory.readWord_of_ge h)

/-- The byte read fails at its own offset past the end (R43, R191). -/
theorem State.reader_readByte_of_ge {s : State} {k : Nat} (h : s.buf.size ≤ s.ip + k) :
    s.reader.readByte k = .error (.outOfRange k) :=
  Reader.readByte_none (Memory.readByte_of_ge h)

theorem rmOperand_disp8 (w : Width) (rm : Idx) (v : Byte) : rmOperand w (.disp8 rm v) = .mem rm (some v.toInt) := by
  rw [rmOperand, signed16_sext16]

theorem rmOperand_disp16 (w : Width) (rm : Idx) (v : Word) : rmOperand w (.disp16 rm v) = .mem rm (some v.toInt) := by
  rw [rmOperand, signed16_eq_toInt]

/-- With a displacement every expression number has a text (R103, R106). -/
theorem memText_disp_exists (rm : Idx) (d : Int) : ∃ t, memText rm (some d) = some t := by
  obtain ⟨e, he⟩ := Option.isSome_iff_exists.mp (eaName_disp_isSome rm)
  exact ⟨_, memText_some he d⟩

/-! ### The step on a family 2 opcode byte -/

/-- A decoded family 2 instruction is emitted, the Direction bit ordering its operands and their texts alike. -/
theorem step_instrByDirection {s : State} {d : BitVec 1} {w : Width} {reg : Idx} {m : RmForm} {t : Text}
    (hs : s.status = some .scanning) (hfetch : s.fetch = .ok (instrByDirection d w reg m))
    (ht : operandText (rmOperand w m) = some t) :
    step s = .next (emittedByDirection s d (rmOperand w m, t) (.reg w reg, regName w reg) (2 + m.dispSize)) := by
  unfold instrByDirection at hfetch
  unfold emittedByDirection
  split at hfetch
  next hd =>
    rw [if_pos hd]
    cases m <;> exact step_emits hs hfetch rfl ht
  next hd =>
    rw [if_neg hd]
    cases m <;> exact step_emits hs hfetch ht rfl

section

variable {s : State} {d : BitVec 1} {w : Width} {mode : BitVec 2} {reg rm : Idx}

/-- The step once the register/memory operand is read. -/
theorem step_opRmReg {m : RmForm} {t : Text} (hs : s.status = some .scanning)
    (h0 : s.buf.readByte s.ip = some (opRmReg d w)) (h1 : s.buf.readByte (s.ip + 1) = some (modByteOf mode reg rm))
    (hm : decodeRm s.reader (modByteOf mode reg rm) mode.toNat rm = .ok m) (ht : operandText (rmOperand w m) = some t) :
    step s = .next (emittedByDirection s d (rmOperand w m, t) (.reg w reg, regName w reg) (2 + m.dispSize)) := by
  have hfetch : s.fetch = .ok (instrByDirection d w reg m) := by
    rw [State.fetch, decode_opRmReg_modByteOf h0 h1, hm, Except.map]
  exact step_instrByDirection hs hfetch ht

/-- The step when the displacement or address at `ip + 2` cannot be read. -/
theorem step_opRmReg_noDisp (hs : s.status = some .scanning) (h0 : s.buf.readByte s.ip = some (opRmReg d w))
    (h1 : s.buf.readByte (s.ip + 1) = some (modByteOf mode reg rm))
    (hm : decodeRm s.reader (modByteOf mode reg rm) mode.toNat rm = .error (.outOfRange 2)) :
    step s = .next (raised s .outOfRange (s.ip + 2) (opRmReg d w)) := by
  have hfetch : s.fetch = .error (.outOfRange 2) := by
    rw [State.fetch, decode_opRmReg_modByteOf h0 h1, hm, Except.map]
  exact step_outOfRange hs h0 hfetch

/-- The step when the mod byte is missing. -/
theorem step_opRmReg_noModByte (hs : s.status = some .scanning) (h0 : s.buf.readByte s.ip = some (opRmReg d w))
    (hshort : s.buf.size ≤ s.ip + 1) : step s = .next (raised s .outOfRange (s.ip + 1) (opRmReg d w)) :=
  have hfetch : s.fetch = .error (.outOfRange 1) := decode_opRmReg_noModByte h0 (Memory.readByte_of_ge hshort)
  step_outOfRange hs h0 hfetch

end

/-! ### The rules -/

/-- Settles O14: mode 3 reads nothing after the mod byte, and both operands are registers. -/
theorem movRegRegRule : Obligations.MovRegRegRule := by
  unfold Obligations.MovRegRegRule
  intro s d w reg rm hs h0
  exact ⟨fun h1 => step_opRmReg (mode := 3) hs h0 h1 (decodeRm_register ..) rfl, step_opRmReg_noModByte hs h0⟩

/-- Settles O15: mode 0 with `rm` other than 6 reads nothing after the mod byte, and the expression has a name. -/
theorem movEaRegRule : Obligations.MovEaRegRule := by
  unfold Obligations.MovEaRegRule
  intro s d w reg rm hs h0
  refine ⟨fun hrm h1 => ?_, step_opRmReg_noModByte hs h0⟩
  obtain ⟨e, he⟩ := Option.isSome_iff_exists.mp (eaName_isSome hrm)
  exact ⟨e, he, step_opRmReg (mode := 0) hs h0 h1 (decodeRm_expr _ _ hrm) (memText_none he)⟩

/-- Settles O16: mode 0 with `rm = 6` reads the address, a word at `ip + 2`, which needs both its bytes. -/
theorem movDirectRegRule : Obligations.MovDirectRegRule := by
  unfold Obligations.MovDirectRegRule
  intro s d w reg hs h0
  have hread := decodeRm_direct s.reader (modByteOf 0 reg directAddressRm)
  refine ⟨fun lo hi h1 hlo hhi => ?_, step_opRmReg_noModByte hs h0, fun h1 hshort => ?_⟩
  · rw [State.reader_readWord_of_bytes hlo hhi] at hread
    exact step_opRmReg (mode := 0) hs h0 h1 hread rfl
  · rw [State.reader_readWord_of_ge hshort] at hread
    exact step_opRmReg_noDisp (mode := 0) hs h0 h1 hread

/-- Settles O17: mode 1 reads a byte at `ip + 2`, whose own signed value is the displacement. -/
theorem movDisp8RegRule : Obligations.MovDisp8RegRule := by
  unfold Obligations.MovDisp8RegRule
  intro s d w reg rm hs h0
  have hread := decodeRm_disp8 s.reader (modByteOf 1 reg rm) rm
  refine ⟨fun v h1 hv => ?_, step_opRmReg_noModByte hs h0, fun h1 hshort => ?_⟩
  · rw [Reader.readByte_some hv] at hread
    obtain ⟨t, ht⟩ := memText_disp_exists rm v.toInt
    refine ⟨t, ht, ?_⟩
    rw [← rmOperand_disp8 w]
    exact step_opRmReg (mode := 1) hs h0 h1 hread (rmOperand_disp8 w rm v ▸ ht)
  · rw [State.reader_readByte_of_ge hshort] at hread
    exact step_opRmReg_noDisp (mode := 1) hs h0 h1 hread

/-- Settles O18: mode 2 reads a word at `ip + 2`, which needs both its bytes; its signed value is the displacement. -/
theorem movDisp16RegRule : Obligations.MovDisp16RegRule := by
  unfold Obligations.MovDisp16RegRule
  intro s d w reg rm hs h0
  have hread := decodeRm_disp16 s.reader (modByteOf 2 reg rm) rm
  refine ⟨fun lo hi h1 hlo hhi => ?_, step_opRmReg_noModByte hs h0, fun h1 hshort => ?_⟩
  · rw [State.reader_readWord_of_bytes hlo hhi] at hread
    obtain ⟨t, ht⟩ := memText_disp_exists rm (hi ++ lo).toInt
    refine ⟨t, ht, ?_⟩
    rw [← rmOperand_disp16 w]
    exact step_opRmReg (mode := 2) hs h0 h1 hread (rmOperand_disp16 w rm (hi ++ lo) ▸ ht)
  · rw [State.reader_readWord_of_ge hshort] at hread
    exact step_opRmReg_noDisp (mode := 2) hs h0 h1 hread

end Sys2Proof.Machine
end

section
/-! PROOF. Family 3, immediate to register/memory (44_mov_imm_to_rm.md): the opcode byte `1100011 w`, a mod byte whose
Register field is ignored, the displacement or address, then the immediate at `2 + DS` (R150). So one lemma gives the step
for every operand, and three give it for a missing mod byte, displacement and immediate. -/

namespace Sys2Proof

/-- A first byte of family 3 leaves the rest to that family's decoder (R94). -/
theorem decode_immToRm {rd : Reader} {b0 : Byte} (hb : rd.byte 0 = some b0) (hc : classify b0 = some .immToRm) :
    decode rd = decodeImmToRm rd b0 := by
  have hread : rd.readByte 0 = .ok b0 := Reader.readByte_some hb
  simp [decode, hread, hc, bind, Except.bind]

/-- The mod byte is read first: without it nothing else of family 3 is (R150). -/
theorem decode_opImmToRm_noModByte {rd : Reader} {w : Width} (h0 : rd.byte 0 = some (opImmToRm w))
    (h1 : rd.byte 1 = none) : decode rd = .error (.outOfRange 1) := by
  have hread : rd.readByte 1 = .error (.outOfRange 1) := Reader.readByte_none h1
  simp [decode_immToRm h0, decodeImmToRm, hread, bind, Except.bind]

section

variable {rd : Reader} {w : Width} {mode : BitVec 2} {x rm : Idx}

/-- With a mod byte, a failed read of the register/memory operand is the decode's failure (R150). -/
theorem decode_opImmToRm_rmError {r : Reject} (h0 : rd.byte 0 = some (opImmToRm w))
    (h1 : rd.byte 1 = some (modByteOf mode x rm))
    (hm : decodeRm rd (modByteOf mode x rm) mode.toNat rm = .error r) : decode rd = .error r := by
  have hread : rd.readByte 1 = .ok (modByteOf mode x rm) := Reader.readByte_some h1
  simp [decode_immToRm h0, decodeImmToRm, hread, hm, bind, Except.bind]

/-- With the register/memory operand read, a family 3 decode is the read of its immediate, of the size the Word bit gives,
behind it (R150). -/
theorem decode_opImmToRm_rmOk {m : RmForm} (h0 : rd.byte 0 = some (opImmToRm w))
    (h1 : rd.byte 1 = some (modByteOf mode x rm)) (hm : decodeRm rd (modByteOf mode x rm) mode.toNat rm = .ok m) :
    decode rd = (rd.readImm w (2 + m.dispSize)).map fun imm => instrImmToRm x imm m := by
  have hread : rd.readByte 1 = .ok (modByteOf mode x rm) := Reader.readByte_some h1
  simp only [decode_immToRm h0 (classify_opImmToRm w), decodeImmToRm, hread, bind, Except.bind, modeField_modByteOf,
    lowField_modByteOf, hm, width_opImmToRm, regField_modByteOf]
  cases rd.readImm w (2 + m.dispSize) <;> rfl

end

end Sys2Proof

namespace Sys2Proof.Machine

open Sys2Proof.Claims

/-! ### The operands and the reads of family 3 -/

theorem destOf_instrImmToRm (x : Idx) (imm : Imm) (m : RmForm) :
    destOf (instrImmToRm x imm m) = rmOperand imm.width m := by
  cases m <;> rfl

theorem srcOf_instrImmToRm (x : Idx) (imm : Imm) (m : RmForm) :
    srcOf (instrImmToRm x imm m) = .imm (immValue imm) (rmQualifier imm.width m) := by
  cases m <;> rfl

theorem qualifier_some (w : Width) : qualifier (some w) = sizeText w := by
  cases w <;> rfl

/-- The immediate standing at a relative offset is read there, in its width and with its signed value (R71). -/
theorem State.reader_readImm_of_immAt {s : State} {k : Nat} {w : Width} {v : Int} (h : ImmAt s (s.ip + k) w v) :
    ∃ imm, s.reader.readImm w k = .ok imm ∧ imm.width = w ∧ immValue imm = v := by
  cases w with
  | narrow =>
    obtain ⟨b, hb, rfl⟩ := h
    have hread : s.reader.readByte k = .ok b := Reader.readByte_some hb
    exact ⟨.imm8 b, by rw [Reader.readImm, hread, Except.map], rfl, immValue_imm8 b⟩
  | wide =>
    obtain ⟨lo, hi, hlo, hhi, rfl⟩ := h
    have hread : s.reader.readWord k = .ok (hi ++ lo) := State.reader_readWord_of_bytes hlo hhi
    exact ⟨.imm16 (hi ++ lo), by rw [Reader.readImm, hread, Except.map], rfl, immValue_imm16 (hi ++ lo)⟩

/-- The immediate read fails as a whole, at its own offset, when its last byte does not exist (R71, R191). -/
theorem State.reader_readImm_of_ge {s : State} {k : Nat} {w : Width} (h : s.buf.size ≤ s.ip + k + w.toNat) :
    s.reader.readImm w k = .error (.outOfRange k) := by
  cases w with
  | narrow => rw [Reader.readImm, State.reader_readByte_of_ge h, Except.map]
  | wide => rw [Reader.readImm, State.reader_readWord_of_ge h, Except.map]

/-- The byte read succeeds inside the buffer (R43). -/
theorem State.reader_readByte_of_lt {s : State} {k : Nat} (h : s.ip + k < s.buf.size) :
    ∃ b, s.reader.readByte k = .ok b :=
  ⟨_, Reader.readByte_some (Memory.readByte_of_lt h)⟩

/-- The word read succeeds when its high byte is inside the buffer (R44). -/
theorem State.reader_readWord_of_lt {s : State} {k : Nat} (h : s.ip + k + 1 < s.buf.size) :
    ∃ a, s.reader.readWord k = .ok a :=
  ⟨_, State.reader_readWord_of_bytes (Memory.readByte_of_lt (Nat.lt_of_succ_lt h)) (Memory.readByte_of_lt h)⟩

/-! ### The step on a family 3 opcode byte -/

/-- The step when the mod byte is missing. -/
theorem step_opImmToRm_noModByte {s : State} {w : Width} (hs : s.status = some .scanning)
    (h0 : s.buf.readByte s.ip = some (opImmToRm w)) (hshort : s.buf.size ≤ s.ip + 1) :
    step s = .next (raised s .outOfRange (s.ip + 1) (opImmToRm w)) :=
  have hfetch : s.fetch = .error (.outOfRange 1) := decode_opImmToRm_noModByte h0 (Memory.readByte_of_ge hshort)
  step_outOfRange hs h0 hfetch

section

variable {s : State} {w : Width} {mode : BitVec 2} {x rm : Idx} {m : RmForm} {t : Text} {v : Int}

/-- The step when the displacement or address at `ip + 2` cannot be read. -/
theorem step_opImmToRm_noDisp (hs : s.status = some .scanning) (h0 : s.buf.readByte s.ip = some (opImmToRm w))
    (h1 : s.buf.readByte (s.ip + 1) = some (modByteOf mode x rm))
    (hm : decodeRm s.reader (modByteOf mode x rm) mode.toNat rm = .error (.outOfRange 2)) :
    step s = .next (raised s .outOfRange (s.ip + 2) (opImmToRm w)) :=
  have hfetch : s.fetch = .error (.outOfRange 2) := decode_opImmToRm_rmError h0 h1 hm
  step_outOfRange hs h0 hfetch

/-- The step when the register/memory operand is read and the immediate behind it is missing or incomplete. -/
theorem step_opImmToRm_noImm (hs : s.status = some .scanning) (h0 : s.buf.readByte s.ip = some (opImmToRm w))
    (h1 : s.buf.readByte (s.ip + 1) = some (modByteOf mode x rm))
    (hm : decodeRm s.reader (modByteOf mode x rm) mode.toNat rm = .ok m)
    (hshort : s.buf.size ≤ s.ip + (2 + m.dispSize) + w.toNat) :
    step s = .next (raised s .outOfRange (s.ip + (2 + m.dispSize)) (opImmToRm w)) := by
  have hfetch : s.fetch = .error (.outOfRange (2 + m.dispSize)) := by
    rw [State.fetch, decode_opImmToRm_rmOk h0 h1 hm, State.reader_readImm_of_ge hshort, Except.map]
  exact step_outOfRange hs h0 hfetch

/-- The step once the register/memory operand and the immediate are read: the operand's form decides whether a qualifier
is printed (R150, D9). -/
theorem step_opImmToRm (hs : s.status = some .scanning) (h0 : s.buf.readByte s.ip = some (opImmToRm w))
    (h1 : s.buf.readByte (s.ip + 1) = some (modByteOf mode x rm))
    (hm : decodeRm s.reader (modByteOf mode x rm) mode.toNat rm = .ok m) (ht : operandText (rmOperand w m) = some t)
    (hv : ImmAt s (s.ip + (2 + m.dispSize)) w v) :
    step s = .next (emitted s (rmOperand w m) (.imm v (rmQualifier w m)) (3 + m.dispSize + w.toNat)
      (movLine t (qualifier (rmQualifier w m) ++ dec v))) := by
  obtain ⟨imm, hread, rfl, rfl⟩ := State.reader_readImm_of_immAt hv
  have hfetch : s.fetch = .ok (instrImmToRm x imm m) := by
    rw [State.fetch, decode_opImmToRm_rmOk h0 h1 hm, hread, Except.map]
  have hlen : (instrImmToRm x imm m).length = 3 + m.dispSize + imm.width.toNat := by
    rw [length_immToRm, immSize]
    omega
  rw [← hlen, ← srcOf_instrImmToRm x, ← destOf_instrImmToRm x]
  exact step_emits hs hfetch (by rw [destOf_instrImmToRm, ht]) (by rw [srcOf_instrImmToRm, operandText])

/-- The step for an operand in memory, whose size the qualifier gives (R150, D9). -/
theorem step_opImmToRm_memory (hq : rmQualifier w m = some w) (hs : s.status = some .scanning)
    (h0 : s.buf.readByte s.ip = some (opImmToRm w)) (h1 : s.buf.readByte (s.ip + 1) = some (modByteOf mode x rm))
    (hm : decodeRm s.reader (modByteOf mode x rm) mode.toNat rm = .ok m) (ht : operandText (rmOperand w m) = some t)
    (hv : ImmAt s (s.ip + (2 + m.dispSize)) w v) :
    step s = .next (emitted s (rmOperand w m) (.imm v (some w)) (3 + m.dispSize + w.toNat)
      (movLine t (sizeText w ++ dec v))) := by
  have hstep := step_opImmToRm hs h0 h1 hm ht hv
  rwa [hq, qualifier_some] at hstep

end

/-! ### The rules -/

/-- Settles O19: mode 3 reads nothing between the mod byte and the immediate, and a register takes no qualifier. -/
theorem movRegImmRule : Obligations.MovRegImmRule := by
  unfold Obligations.MovRegImmRule
  intro s w x rm hs h0
  have hm := decodeRm_register s.reader (modByteOf 3 x rm) rm
  exact ⟨fun v h1 hv => step_opImmToRm (mode := 3) hs h0 h1 hm rfl hv, step_opImmToRm_noModByte hs h0,
    fun h1 hshort => step_opImmToRm_noImm (mode := 3) hs h0 h1 hm hshort⟩

/-- Settles O20: mode 0 with `rm` other than 6 reads nothing between the mod byte and the immediate, and the expression has
a name. -/
theorem movEaImmRule : Obligations.MovEaImmRule := by
  unfold Obligations.MovEaImmRule
  intro s w x rm hs h0
  refine ⟨fun v hrm h1 hv => ?_, step_opImmToRm_noModByte hs h0, fun hrm h1 hshort => ?_⟩
  · obtain ⟨e, he⟩ := Option.isSome_iff_exists.mp (eaName_isSome hrm)
    exact ⟨e, he, step_opImmToRm_memory (mode := 0) rfl hs h0 h1 (decodeRm_expr _ _ hrm) (memText_none he) hv⟩
  · exact step_opImmToRm_noImm (mode := 0) hs h0 h1 (decodeRm_expr _ _ hrm) hshort

/-- Settles O21: mode 0 with `rm = 6` reads the address, a word at `ip + 2`, and then the immediate at `ip + 4`. -/
theorem movDirectImmRule : Obligations.MovDirectImmRule := by
  unfold Obligations.MovDirectImmRule
  intro s w x hs h0
  have hread := decodeRm_direct s.reader (modByteOf 0 x directAddressRm)
  refine ⟨fun lo hi v h1 hlo hhi hv => ?_, step_opImmToRm_noModByte hs h0, fun h1 hshort => ?_,
    fun h1 haddr hshort => ?_⟩
  · rw [State.reader_readWord_of_bytes hlo hhi] at hread
    exact step_opImmToRm_memory (mode := 0) rfl hs h0 h1 hread rfl hv
  · rw [State.reader_readWord_of_ge hshort] at hread
    exact step_opImmToRm_noDisp (mode := 0) hs h0 h1 hread
  · obtain ⟨a, ha⟩ := State.reader_readWord_of_lt haddr
    rw [ha] at hread
    exact step_opImmToRm_noImm (mode := 0) hs h0 h1 hread hshort

/-- Settles O22: mode 1 reads the displacement, a byte at `ip + 2`, and then the immediate at `ip + 3`. -/
theorem movDisp8ImmRule : Obligations.MovDisp8ImmRule := by
  unfold Obligations.MovDisp8ImmRule
  intro s w x rm hs h0
  have hread := decodeRm_disp8 s.reader (modByteOf 1 x rm) rm
  refine ⟨fun b v h1 hb hv => ?_, step_opImmToRm_noModByte hs h0, fun h1 hshort => ?_, fun h1 hdisp hshort => ?_⟩
  · rw [Reader.readByte_some hb] at hread
    obtain ⟨t, ht⟩ := memText_disp_exists rm b.toInt
    refine ⟨t, ht, ?_⟩
    rw [← rmOperand_disp8 w]
    exact step_opImmToRm_memory (mode := 1) rfl hs h0 h1 hread (rmOperand_disp8 w rm b ▸ ht) hv
  · rw [State.reader_readByte_of_ge hshort] at hread
    exact step_opImmToRm_noDisp (mode := 1) hs h0 h1 hread
  · obtain ⟨b, hb⟩ := State.reader_readByte_of_lt hdisp
    rw [hb] at hread
    exact step_opImmToRm_noImm (mode := 1) hs h0 h1 hread hshort

/-- Settles O23: mode 2 reads the displacement, a word at `ip + 2`, and then the immediate at `ip + 4`. -/
theorem movDisp16ImmRule : Obligations.MovDisp16ImmRule := by
  unfold Obligations.MovDisp16ImmRule
  intro s w x rm hs h0
  have hread := decodeRm_disp16 s.reader (modByteOf 2 x rm) rm
  refine ⟨fun lo hi v h1 hlo hhi hv => ?_, step_opImmToRm_noModByte hs h0, fun h1 hshort => ?_,
    fun h1 hdisp hshort => ?_⟩
  · rw [State.reader_readWord_of_bytes hlo hhi] at hread
    obtain ⟨t, ht⟩ := memText_disp_exists rm (hi ++ lo).toInt
    refine ⟨t, ht, ?_⟩
    rw [← rmOperand_disp16 w]
    exact step_opImmToRm_memory (mode := 2) rfl hs h0 h1 hread (rmOperand_disp16 w rm (hi ++ lo) ▸ ht) hv
  · rw [State.reader_readWord_of_ge hshort] at hread
    exact step_opImmToRm_noDisp (mode := 2) hs h0 h1 hread
  · obtain ⟨d, hd⟩ := State.reader_readWord_of_lt hdisp
    rw [hd] at hread
    exact step_opImmToRm_noImm (mode := 2) hs h0 h1 hread hshort

end Sys2Proof.Machine
end

section
/-! PROOF. Families 4 and 5, the accumulator forms (45_mov_accumulator.md): after the opcode byte both read one word, the
address at offset 1, and differ only in which operand is the destination (R170). So the reasoning from the fetch of that
word to the step is given once, for any instruction built from it. -/

namespace Sys2Proof

/-- Family 4: the word at offset 1 is the source address (R94, R170). -/
theorem decode_opMemToAcc {rd : Reader} {w : Width} (hb : rd.byte 0 = some (opMemToAcc w)) :
    decode rd = (rd.readWord 1).map (.movAccAddr w) := by
  have hread : rd.readByte 0 = .ok (opMemToAcc w) := Reader.readByte_some hb
  simp [decode, hread, decodeMemToAcc, bind, Except.bind]

/-- Family 5: the word at offset 1 is the destination address (R94, R170). -/
theorem decode_opAccToMem {rd : Reader} {w : Width} (hb : rd.byte 0 = some (opAccToMem w)) :
    decode rd = (rd.readWord 1).map (.movAddrAcc w) := by
  have hread : rd.readByte 0 = .ok (opAccToMem w) := Reader.readByte_some hb
  simp [decode, hread, decodeAccToMem, bind, Except.bind]

end Sys2Proof

namespace Sys2Proof.Machine

open Sys2Proof.Claims

/-! ### The step on an opcode byte followed by one word -/

section

variable {s : State} {f : Word → Instr}

/-- The step when both bytes of the word exist. -/
theorem step_wordAfterOpcode {lo hi : Byte} {d o : Text} (hs : s.status = some .scanning)
    (hfetch : s.fetch = (s.reader.readWord 1).map f) (hlo : s.buf.readByte (s.ip + 1) = some lo)
    (hhi : s.buf.readByte (s.ip + 2) = some hi) (hd : operandText (destOf (f (hi ++ lo))) = some d)
    (ho : operandText (srcOf (f (hi ++ lo))) = some o) :
    step s = .next (emitted s (destOf (f (hi ++ lo))) (srcOf (f (hi ++ lo))) (f (hi ++ lo)).length (movLine d o)) := by
  rw [State.reader_readWord_of_bytes hlo hhi] at hfetch
  exact step_emits hs hfetch hd ho

/-- The step when the word is missing or incomplete: the error is at its low byte. -/
theorem step_wordAfterOpcode_short {b : Byte} (hs : s.status = some .scanning) (hb : s.buf.readByte s.ip = some b)
    (hfetch : s.fetch = (s.reader.readWord 1).map f) (hshort : s.buf.size ≤ s.ip + 2) :
    step s = .next (raised s .outOfRange (s.ip + 1) b) := by
  rw [State.reader_readWord_of_ge hshort] at hfetch
  exact step_outOfRange hs hb hfetch

end

/-! ### The rules -/

/-- Settles O24: the fetch is the word read at `ip + 1`, and the accumulator and the address both have texts. -/
theorem movAccAddrRule : Obligations.MovAccAddrRule := by
  unfold Obligations.MovAccAddrRule
  intro s w hs h0
  have hfetch : s.fetch = (s.reader.readWord 1).map (.movAccAddr w) := decode_opMemToAcc h0
  exact ⟨fun lo hi hlo hhi => step_wordAfterOpcode hs hfetch hlo hhi rfl rfl,
    step_wordAfterOpcode_short hs h0 hfetch⟩

/-- Settles O25: as O24, the address now the destination. -/
theorem movAddrAccRule : Obligations.MovAddrAccRule := by
  unfold Obligations.MovAddrAccRule
  intro s w hs h0
  have hfetch : s.fetch = (s.reader.readWord 1).map (.movAddrAcc w) := decode_opAccToMem h0
  exact ⟨fun lo hi hlo hhi => step_wordAfterOpcode hs hfetch hlo hhi rfl rfl,
    step_wordAfterOpcode_short hs h0 hfetch⟩

end Sys2Proof.Machine
end

section
/-! PROOF. The decode loop (46_decode_loop.md R181): a decoded instruction takes 2 to 6 bytes and lies inside the buffer,
and a step moves `ip` by exactly that length or not at all. -/

namespace Sys2Proof

theorem immSize_bounds (w : Width) : 1 ≤ immSize w ∧ immSize w ≤ 2 := by
  cases w <;> decide

/-- The bounds of R70, on every instruction: only the immediate of family 3 varies within a row. -/
theorem Instr.length_bounds (i : Instr) : 2 ≤ i.length ∧ i.length ≤ 6 := by
  cases i with
  | movRImm _ _ imm | movEaImm _ _ imm | movAddrImm _ _ imm | movEaDisp8Imm _ _ _ imm | movEaDisp16Imm _ _ _ imm =>
    have := immSize_bounds imm.width
    simp only [Instr.length]
    omega
  | _ => simp [Instr.length]

end Sys2Proof

namespace Sys2Proof.Machine

/-- An instruction fetched at `ip` ends inside the buffer: its last byte has been read (R22, R43, R44). -/
theorem State.ip_add_length_le_of_fetch {s : State} {i : Instr} (h : s.fetch = .ok i) :
    s.ip + i.length ≤ s.buf.size := by
  obtain ⟨k, hk, hread⟩ := decode_lastByte s.reader_coherent h
  have hlt : s.ip + k < s.buf.size := (s.buf.readByte_isSome_iff _).mp hread
  omega

/-- Settles O30: of the three things a step can be, only the emission of a fetched instruction moves `ip`, and it latches
no error; a raise and a step at the end of a run leave `ip`. -/
theorem successfulStepAdvancesByTheLength : Obligations.SuccessfulStepAdvancesByTheLength := by
  unfold Obligations.SuccessfulStepAdvancesByTheLength
  intro s t h
  obtain ⟨hend, rfl⟩ | ⟨hs, i, hi, hx⟩ | ⟨-, r, -, rfl⟩ := step_next h
  · exact ⟨fun hs => by simp [hs] at hend, fun _ => rfl⟩
  · obtain ⟨x, -, rfl⟩ := exec_next hx
    have hnone : s.err = none := (s.status_scanning_iff.mp hs).1
    have ⟨hlo, hhi⟩ := i.length_bounds
    exact ⟨fun _ _ => ⟨i, hi, rfl, hlo, hhi, State.ip_add_length_le_of_fetch hi⟩,
      fun hother => absurd hother (by simp [hs, hnone])⟩
  · exact ⟨fun _ hok => by simp at hok, fun _ => s.raise_ip _⟩

end Sys2Proof.Machine
end

section
/-! PROOF. The errors (60_exceptions.md section 3): what a step that latches one leaves unchanged (R196). -/

namespace Sys2Proof.Machine

open Sys2Proof.Claims

/-- Raising writes nothing but the record (R196). -/
theorem State.raise_eq_raised (s : State) (e : ErrRecord) : s.raise e = raised s e.kind e.offset e.byte := rfl

/-- From a state with no error, the only step that latches one is the raise of what rejected the bytes at `ip`: an executed
instruction and a step at the end of a run keep `err`. -/
theorem step_eq_raise_of_latches {s t : State} (hnone : s.err = none) (h : step s = .next t) (hfail : t.err ≠ none) :
    ∃ r, s.fetch = .error r ∧ t = s.raise (s.errorOf r) := by
  obtain ⟨-, rfl⟩ | ⟨-, i, -, hx⟩ | ⟨-, hraise⟩ := step_next h
  · exact absurd hnone hfail
  · obtain ⟨x, -, rfl⟩ := exec_next hx
    exact absurd hnone hfail
  · exact hraise

/-- Settles O27: the step is a raise, whose next state is `s` with the record in `err`, and a latched record makes the status
`Failed`. -/
theorem raiseLatchesTheErrorOnly : Obligations.RaiseLatchesTheErrorOnly := by
  unfold Obligations.RaiseLatchesTheErrorOnly
  intro s t hnone h hfail
  obtain ⟨r, -, ht⟩ := step_eq_raise_of_latches hnone h hfail
  exact ⟨_, _, _, ht.trans (s.raise_eq_raised _), t.status_failed_iff.mpr hfail⟩

end Sys2Proof.Machine
end

section
/-! SUPPORT. The instructions by family: families 2 and 3 are built from one register/memory form each (R130, R150), so
what is said of every instruction has six cases. -/

namespace Sys2Proof

/-- Every instruction is built by its family's decoder: the cases of a statement about all instructions. -/
theorem Instr.byFamily {P : Instr → Prop} (imm8ToReg : ∀ reg v, P (.movR8Imm8 reg v))
    (imm16ToReg : ∀ reg v, P (.movR16Imm16 reg v)) (rmReg : ∀ d w reg m, P (instrByDirection d w reg m))
    (immToRm : ∀ x imm m, P (instrImmToRm x imm m)) (memToAcc : ∀ w a, P (.movAccAddr w a))
    (accToMem : ∀ w a, P (.movAddrAcc w a)) (i : Instr) : P i := by
  cases i with
  | movR8Imm8 reg v => exact imm8ToReg reg v
  | movR16Imm16 reg v => exact imm16ToReg reg v
  | movRRRegSrc w reg rm => exact rmReg 0 w reg (.register rm)
  | movEaR w reg rm => exact rmReg 0 w reg (.expr rm)
  | movAddrR w reg a => exact rmReg 0 w reg (.direct a)
  | movEaDisp8R w reg rm d => exact rmReg 0 w reg (.disp8 rm d)
  | movEaDisp16R w reg rm d => exact rmReg 0 w reg (.disp16 rm d)
  | movRRRegDst w reg rm => exact rmReg 1 w reg (.register rm)
  | movREa w reg rm => exact rmReg 1 w reg (.expr rm)
  | movRAddr w reg a => exact rmReg 1 w reg (.direct a)
  | movREaDisp8 w reg rm d => exact rmReg 1 w reg (.disp8 rm d)
  | movREaDisp16 w reg rm d => exact rmReg 1 w reg (.disp16 rm d)
  | movRImm x rm imm => exact immToRm x imm (.register rm)
  | movEaImm x rm imm => exact immToRm x imm (.expr rm)
  | movAddrImm x a imm => exact immToRm x imm (.direct a)
  | movEaDisp8Imm x rm d imm => exact immToRm x imm (.disp8 rm d)
  | movEaDisp16Imm x rm d imm => exact immToRm x imm (.disp16 rm d)
  | movAccAddr w a => exact memToAcc w a
  | movAddrAcc w a => exact accToMem w a

/-! ### Family 2, built from its Direction bit and its register/memory form -/

@[simp] theorem encode_instrByDirection (d : BitVec 1) (w : Width) (reg : Idx) (m : RmForm) :
    encode (instrByDirection d w reg m) = encodeRmReg d w reg m := by
  obtain rfl | rfl := BitVec.eq_zero_or_eq_one d <;> cases m <;> rfl

/-- The direct address is never an expression (R104); every other form is well formed. -/
theorem wellFormed_instrByDirection {d : BitVec 1} {w : Width} {reg : Idx} {m : RmForm} :
    WellFormed (instrByDirection d w reg m) = true ↔ m ≠ .expr directAddressRm := by
  obtain rfl | rfl := BitVec.eq_zero_or_eq_one d <;> cases m <;>
    simp [instrByDirection, instrRegFromRm, instrRmFromReg, WellFormed]

/-! ### Family 3, built from its immediate and its register/memory form -/

@[simp] theorem encode_instrImmToRm (x : Idx) (imm : Imm) (m : RmForm) :
    encode (instrImmToRm x imm m) = encodeImmToRm x imm m := by
  cases m <;> rfl

/-- The direct address is never an expression (R104); every other form is well formed. -/
theorem wellFormed_instrImmToRm {x : Idx} {imm : Imm} {m : RmForm} :
    WellFormed (instrImmToRm x imm m) = true ↔ m ≠ .expr directAddressRm := by
  cases m <;> simp [instrImmToRm, WellFormed]

end Sys2Proof
end

section
/-! PROOF. Decode and encode are inverse (30_encoding.md sections 2 and 4): both directions are said once of any reader
whose words are its bytes, then of a list of bytes and of the buffer at `ip`. -/

namespace Sys2Proof

/-- The given bytes stand at offset `k` of a reader. -/
def Reader.Holds (rd : Reader) (k : Nat) (l : List Byte) : Prop := ∀ j, j < l.length → rd.byte (k + j) = l[j]?

theorem Reader.holds_nil (rd : Reader) (k : Nat) : rd.Holds k [] := nofun

theorem Reader.holds_cons {rd : Reader} {k : Nat} {b : Byte} {l : List Byte} :
    rd.Holds k (b :: l) ↔ rd.byte k = some b ∧ rd.Holds (k + 1) l := by
  constructor
  · intro h
    refine ⟨h 0 (Nat.succ_pos _), fun j hj => ?_⟩
    rw [Nat.add_assoc, Nat.add_comm 1 j]
    exact h (j + 1) (Nat.succ_lt_succ hj)
  · rintro ⟨hb, hl⟩ j hj
    cases j with
    | zero => exact hb
    | succ j =>
      rw [← Nat.add_assoc, Nat.add_right_comm]
      exact hl j (Nat.lt_of_succ_lt_succ hj)

theorem Reader.holds_append {rd : Reader} {k : Nat} {l l' : List Byte} :
    rd.Holds k (l ++ l') ↔ rd.Holds k l ∧ rd.Holds (k + l.length) l' := by
  induction l generalizing k with
  | nil => simp [Reader.holds_nil]
  | cons b l ih =>
    rw [List.cons_append, Reader.holds_cons, Reader.holds_cons, ih, and_assoc, List.length_cons,
      Nat.add_assoc, Nat.add_comm 1]

/-- The bytes of a word stand where the word is read. -/
theorem Reader.Coherent.holds_wordBytes {rd : Reader} (c : rd.Coherent) {k : Nat} {a : Word} :
    rd.Holds k (wordBytes a) ↔ rd.readWord k = .ok a := by
  simp [wordBytes, Reader.holds_cons, Reader.holds_nil, c.readWord_eq_ok_iff]

theorem Reader.holds_singleton {rd : Reader} {k : Nat} {b : Byte} : rd.Holds k [b] ↔ rd.readByte k = .ok b := by
  simp [Reader.holds_cons, Reader.holds_nil, Reader.readByte_eq_ok_iff]

/-- A list stands at the start of its own reader exactly when the list begins with it. -/
theorem listReader_holds_iff {bs l : List Byte} : (listReader bs).Holds 0 l ↔ l <+: bs := by
  rw [List.prefix_iff_getElem?]
  refine forall₂_congr fun j hj => ?_
  rw [listReader_byte, Nat.zero_add, List.getElem?_eq_getElem hj]

/-! ### A reader that holds an encoding decodes it -/

/-- The family 2 decode once its mod byte and its register/memory operand are read. -/
theorem decode_opRmReg_of_reads {rd : Reader} {d : BitVec 1} {w : Width} {b1 : Byte} {m : RmForm}
    (h0 : rd.byte 0 = some (opRmReg d w)) (h1 : rd.byte 1 = some b1)
    (hm : decodeRm rd b1 (modeField b1) (lowField b1) = .ok m) :
    decode rd = .ok (instrByDirection d w (regField b1) m) := by
  rw [← modByteOf_fields b1] at h1 hm
  rw [modeField_modByteOf, lowField_modByteOf] at hm
  rw [decode_opRmReg_modByteOf h0 h1, hm, Except.map]

/-- The family 3 decode once its mod byte, its register/memory operand and its immediate are read. -/
theorem decode_opImmToRm_of_reads {rd : Reader} {b1 : Byte} {m : RmForm} {imm : Imm}
    (h0 : rd.byte 0 = some (opImmToRm imm.width)) (h1 : rd.byte 1 = some b1)
    (hm : decodeRm rd b1 (modeField b1) (lowField b1) = .ok m)
    (himm : rd.readImm imm.width (2 + m.dispSize) = .ok imm) :
    decode rd = .ok (instrImmToRm (regField b1) imm m) := by
  rw [← modByteOf_fields b1] at h1 hm
  rw [modeField_modByteOf, lowField_modByteOf] at hm
  rw [decode_opImmToRm_rmOk h0 h1 hm, himm, Except.map]

theorem Reader.Coherent.decode_of_holds {rd : Reader} (c : rd.Coherent) {i : Instr} (hwf : WellFormed i = true)
    (h : rd.Holds 0 (encode i)) : decode rd = .ok i := by
  cases i using Instr.byFamily with
  | imm8ToReg reg v =>
    obtain ⟨h0, hv⟩ := Reader.holds_cons.mp h
    rw [decode_opImmToReg_narrow h0, Reader.holds_singleton.mp hv, Except.map]
  | imm16ToReg reg v =>
    obtain ⟨h0, hv⟩ := Reader.holds_cons.mp h
    rw [decode_opImmToReg_wide h0, c.holds_wordBytes.mp hv, Except.map]
  | rmReg d w reg m =>
    rw [encode_instrByDirection] at h
    obtain ⟨h0, hbytes⟩ := Reader.holds_cons.mp h
    obtain ⟨b1, h1, rfl, hm⟩ := decodeRm_of_bytes c (wellFormed_instrByDirection.mp hwf) hbytes
    exact decode_opRmReg_of_reads h0 (Reader.readByte_eq_ok_iff.mp h1) hm
  | immToRm x imm m =>
    rw [encode_instrImmToRm] at h
    obtain ⟨h0, hrest⟩ := Reader.holds_cons.mp h
    obtain ⟨hbytes, himm⟩ := Reader.holds_append.mp hrest
    rw [RmForm.bytes_length, Nat.zero_add, ← Nat.add_assoc] at himm
    obtain ⟨b1, h1, rfl, hm⟩ := decodeRm_of_bytes c (wellFormed_instrImmToRm.mp hwf) hbytes
    exact decode_opImmToRm_of_reads h0 (Reader.readByte_eq_ok_iff.mp h1) hm (c.readImm_of_bytes himm)
  | memToAcc w a =>
    obtain ⟨h0, ha⟩ := Reader.holds_cons.mp h
    rw [decode_opMemToAcc h0, c.holds_wordBytes.mp ha, Except.map]
  | accToMem w a =>
    obtain ⟨h0, ha⟩ := Reader.holds_cons.mp h
    rw [decode_opAccToMem h0, c.holds_wordBytes.mp ha, Except.map]

/-! ### A reader that decodes holds the encoding -/

/-- What family 2's decoder builds is the instruction of its Direction bit (R130). -/
theorem instrByDirection_ofBool (dir : Bool) (w : Width) (reg : Idx) (m : RmForm) :
    instrByDirection (BitVec.ofBool dir) w reg m = if dir then instrRegFromRm w reg m else instrRmFromReg w reg m := by
  cases dir <;> rfl

theorem Reader.Coherent.wellFormed_and_holds_of_decode {rd : Reader} (c : rd.Coherent) {i : Instr}
    (h : decode rd = .ok i) : WellFormed i = true ∧ rd.Holds 0 (encode i) := by
  obtain ⟨b0, h0, ⟨hc, h⟩ | ⟨hc, h⟩ | ⟨hc, h⟩ | ⟨hc, a, ha, rfl⟩ | ⟨hc, a, ha, rfl⟩⟩ := decode_ok h
  · have hop := opImmToReg_of_classify b0 hc
    obtain ⟨v, hw, hv, rfl⟩ | ⟨v, hw, hv, rfl⟩ := decodeImmToReg_ok h <;> rw [hw] at hop
    · exact ⟨rfl, Reader.holds_cons.mpr ⟨h0.trans (congrArg some hop.symm), Reader.holds_singleton.mpr hv⟩⟩
    · exact ⟨rfl, Reader.holds_cons.mpr ⟨h0.trans (congrArg some hop.symm), c.holds_wordBytes.mpr hv⟩⟩
  · obtain ⟨b1, m, h1, hm, rfl⟩ := decodeRmReg_ok h
    obtain ⟨hne, hbytes⟩ := decodeRm_ok c h1 hm
    rw [← instrByDirection_ofBool, encode_instrByDirection]
    have hop := opRmReg_of_classify b0 hc
    exact ⟨wellFormed_instrByDirection.mpr hne, Reader.holds_cons.mpr ⟨h0.trans (congrArg some hop.symm), hbytes⟩⟩
  · obtain ⟨b1, m, imm, h1, hm, himm, rfl⟩ := decodeImmToRm_ok h
    obtain ⟨hne, hbytes⟩ := decodeRm_ok c h1 hm
    obtain ⟨hw, himm⟩ := c.readImm_ok himm
    rw [encode_instrImmToRm]
    refine ⟨wellFormed_instrImmToRm.mpr hne, Reader.holds_cons.mpr ⟨?_, Reader.holds_append.mpr ⟨hbytes, ?_⟩⟩⟩
    · rw [hw, opImmToRm_of_classify b0 hc]
      exact h0
    · rw [RmForm.bytes_length, Nat.zero_add, ← Nat.add_assoc]
      exact himm
  · have hop := opMemToAcc_of_classify b0 hc
    exact ⟨rfl, Reader.holds_cons.mpr ⟨h0.trans (congrArg some hop.symm), c.holds_wordBytes.mpr ha⟩⟩
  · have hop := opAccToMem_of_classify b0 hc
    exact ⟨rfl, Reader.holds_cons.mpr ⟨h0.trans (congrArg some hop.symm), c.holds_wordBytes.mpr ha⟩⟩

/-! ### A list of bytes -/

/-- Settles O1: the list begins with the encoding, and a reader that holds an encoding decodes it. -/
theorem decodeOfEncodeIsTheInstruction : Obligations.DecodeOfEncodeIsTheInstruction := by
  unfold Obligations.DecodeOfEncodeIsTheInstruction
  intro i rest hwf
  exact (listReader_coherent _).decode_of_holds hwf (listReader_holds_iff.mpr (List.prefix_append _ _))

/-- Settles O2: what decodes holds the encoding, so the list begins with it. -/
theorem decodedBytesAreTheEncoding : Obligations.DecodedBytesAreTheEncoding := by
  unfold Obligations.DecodedBytesAreTheEncoding
  intro bs i h
  obtain ⟨hwf, hholds⟩ := (listReader_coherent bs).wellFormed_and_holds_of_decode h
  obtain ⟨rest, hrest⟩ := listReader_holds_iff.mp hholds
  exact ⟨hwf, rest, hrest.symm⟩

/-- Settles O3: the seven words are evaluated. -/
theorem wordsFromTheEncodingsDecode : Obligations.WordsFromTheEncodingsDecode := by
  unfold Obligations.WordsFromTheEncodingsDecode
  decide

end Sys2Proof

namespace Sys2Proof.Machine

/-- Settles O10: the step in `Scanning` is exec of what is fetched. -/
theorem stepRunsTheDecodedInstruction : Obligations.StepRunsTheDecodedInstruction := by
  unfold Obligations.StepRunsTheDecodedInstruction
  exact fun _ _ => step_of_fetch_ok

/-- Settles O11: the reader at `ip` holds the encoding, so the instruction is fetched. -/
theorem bytesAtIpRunTheirInstruction : Obligations.BytesAtIpRunTheirInstruction := by
  unfold Obligations.BytesAtIpRunTheirInstruction
  intro s i hs hwf hbytes
  have hholds : s.reader.Holds 0 (encode i) := fun k hk => by
    rw [Nat.zero_add]
    exact hbytes k hk
  exact step_of_fetch_ok hs (s.reader_coherent.decode_of_holds hwf hholds)

end Sys2Proof.Machine
end

section
/-! PROOF. exec, for every instruction and in every state: it emits exactly when both operands have a text, and they have
one exactly when the instruction is well formed. -/

namespace Sys2Proof.Machine

open Sys2Proof.Claims

/-- An instruction whose operands have texts is emitted, in every state (R25, R181). -/
theorem exec_emits {s : State} {i : Instr} {d o : Text} (hd : operandText (destOf i) = some d)
    (ho : operandText (srcOf i) = some o) :
    exec i s = .next (emitted s (destOf i) (srcOf i) i.length (movLine d o)) := by
  have htext : recordText (recordOf i s.ip) = some (movLine d o) := recordText_of_texts hd ho
  rw [exec_eq_completeMov]
  exact completeMov_of_text htext

/-- Family 2: the Direction bit orders the operands and their texts alike (R130). -/
theorem exec_instrByDirection {w : Width} {m : RmForm} {t : Text} (ht : operandText (rmOperand w m) = some t) (s : State)
    (d : BitVec 1) (reg : Idx) :
    exec (instrByDirection d w reg m) s =
      .next (emittedByDirection s d (rmOperand w m, t) (.reg w reg, regName w reg) (2 + m.dispSize)) := by
  obtain rfl | rfl := BitVec.eq_zero_or_eq_one d
  · cases m <;> exact exec_emits ht rfl
  · cases m <;> exact exec_emits rfl ht

/-- Family 3: the Register field `x` has no part in the record (R150). -/
theorem exec_instrImmToRm {imm : Imm} {m : RmForm} {t : Text} (ht : operandText (rmOperand imm.width m) = some t)
    (s : State) (x : Idx) :
    exec (instrImmToRm x imm m) s =
      .next (emitted s (rmOperand imm.width m) (.imm (immValue imm) (rmQualifier imm.width m))
        (2 + m.dispSize + immSize imm.width) (movLine t (qualifier (rmQualifier imm.width m) ++ dec (immValue imm)))) := by
  cases m <;> exact exec_emits ht rfl

theorem destOf_instrByDirection (d : BitVec 1) (w : Width) (reg : Idx) (m : RmForm) :
    destOf (instrByDirection d w reg m) = if d = 1 then .reg w reg else rmOperand w m := by
  obtain rfl | rfl := BitVec.eq_zero_or_eq_one d <;> cases m <;> rfl

theorem srcOf_instrByDirection (d : BitVec 1) (w : Width) (reg : Idx) (m : RmForm) :
    srcOf (instrByDirection d w reg m) = if d = 1 then rmOperand w m else .reg w reg := by
  obtain rfl | rfl := BitVec.eq_zero_or_eq_one d <;> cases m <;> rfl

/-! ### The families' results -/

/-- Settles O33: a register and a number always have a text. -/
theorem execImmToRegAppends : Obligations.ExecImmToRegAppends := by
  unfold Obligations.ExecImmToRegAppends
  intro s reg v u
  rw [← immValue_imm8, ← immValue_imm16]
  exact ⟨exec_emits rfl rfl, exec_emits rfl rfl⟩

/-- Settles O34: a register and a direct address always have a text. -/
theorem execRegisterAndDirectFormsAppend : Obligations.ExecRegisterAndDirectFormsAppend := by
  unfold Obligations.ExecRegisterAndDirectFormsAppend
  exact fun _ _ _ _ _ => ⟨exec_emits rfl rfl, exec_emits rfl rfl, exec_emits rfl rfl, exec_emits rfl rfl⟩

/-- An expression other than the direct address has a text without a displacement (R103). -/
theorem memText_none_exists {rm : Idx} (h : rm ≠ directAddressRm) : ∃ t, memText rm none = some t := by
  obtain ⟨e, he⟩ := Option.isSome_iff_exists.mp (eaName_isSome h)
  exact ⟨_, memText_none he⟩

/-- Settles O35: both directions of a form emit the form's text, which every expression but the direct address has. -/
theorem execMemoryFormsAppend : Obligations.ExecMemoryFormsAppend := by
  unfold Obligations.ExecMemoryFormsAppend
  intro s w reg rm b u
  refine ⟨fun hrm => ?_, ?_, ?_⟩
  · obtain ⟨t, ht⟩ := memText_none_exists hrm
    have hexec := exec_instrByDirection (w := w) (m := .expr rm) ht s
    exact ⟨t, ht, hexec 0 reg, hexec 1 reg⟩
  · obtain ⟨t, ht⟩ := memText_disp_exists rm b.toInt
    have hexec := exec_instrByDirection (w := w) (m := .disp8 rm b) (by rw [rmOperand_disp8]; exact ht) s
    rw [rmOperand_disp8] at hexec
    exact ⟨t, ht, hexec 0 reg, hexec 1 reg⟩
  · obtain ⟨t, ht⟩ := memText_disp_exists rm u.toInt
    have hexec := exec_instrByDirection (w := w) (m := .disp16 rm u) (by rw [rmOperand_disp16]; exact ht) s
    rw [rmOperand_disp16] at hexec
    exact ⟨t, ht, hexec 0 reg, hexec 1 reg⟩

/-- Settles O36: the width, the value and the size of the immediate are its own; each form emits its text, and a qualifier
unless it is a register. -/
theorem execImmToRmAppends : Obligations.ExecImmToRmAppends := by
  unfold Obligations.ExecImmToRmAppends
  intro s x rm a b u imm w v n himm
  obtain ⟨rfl, rfl, rfl⟩ : w = imm.width ∧ v = immValue imm ∧ n = immSize imm.width := by
    obtain ⟨c, rfl, rfl, rfl, rfl⟩ | ⟨c, rfl, rfl, rfl, rfl⟩ := himm
    · exact ⟨rfl, (immValue_imm8 c).symm, rfl⟩
    · exact ⟨rfl, (immValue_imm16 c).symm, rfl⟩
  rw [← qualifier_some]
  refine ⟨exec_instrImmToRm (m := .register rm) rfl s x, fun hrm => ?_, exec_instrImmToRm (m := .direct a) rfl s x,
    ?_, ?_⟩
  · obtain ⟨t, ht⟩ := memText_none_exists hrm
    exact ⟨t, ht, exec_instrImmToRm (m := .expr rm) ht s x⟩
  · obtain ⟨t, ht⟩ := memText_disp_exists rm b.toInt
    rw [← rmOperand_disp8 imm.width]
    exact ⟨t, ht, exec_instrImmToRm (m := .disp8 rm b) (by rw [rmOperand_disp8]; exact ht) s x⟩
  · obtain ⟨t, ht⟩ := memText_disp_exists rm u.toInt
    rw [← rmOperand_disp16 imm.width]
    exact ⟨t, ht, exec_instrImmToRm (m := .disp16 rm u) (by rw [rmOperand_disp16]; exact ht) s x⟩

/-- Settles O37: the accumulator and a direct address always have a text. -/
theorem execAccumulatorFormsAppend : Obligations.ExecAccumulatorFormsAppend := by
  unfold Obligations.ExecAccumulatorFormsAppend
  exact fun _ _ _ => ⟨exec_emits rfl rfl, exec_emits rfl rfl⟩

/-- Settles O57: the two instructions of each pair have the same operands, so they emit the same line. -/
theorem equivalentEncodingsPrintAlike : Obligations.EquivalentEncodingsPrintAlike := by
  unfold Obligations.EquivalentEncodingsPrintAlike
  intro w reg rm x a b i j s hpair
  simp only [List.mem_cons, Prod.mk.injEq, List.not_mem_nil, or_false] at hpair
  obtain ⟨rfl, rfl⟩ | ⟨rfl, rfl⟩ | ⟨rfl, rfl⟩ | ⟨rfl, rfl⟩ | ⟨rfl, rfl⟩ := hpair <;>
    exact ⟨_, _, _, _, _, exec_emits rfl rfl, exec_emits rfl rfl⟩

/-! ### Completion and frame -/

/-- The operands of a well-formed instruction have texts (R9, R80). -/
theorem operandTexts_of_wellFormed {i : Instr} (h : WellFormed i = true) :
    (∃ d, operandText (destOf i) = some d) ∧ ∃ o, operandText (srcOf i) = some o := by
  cases i using Instr.byFamily with
  | rmReg d w reg m =>
    have ht := rmOperand_text (w := w) (wellFormed_instrByDirection.mp h)
    rw [destOf_instrByDirection, srcOf_instrByDirection]
    split
    · exact ⟨⟨_, rfl⟩, ht⟩
    · exact ⟨ht, _, rfl⟩
  | immToRm x imm m =>
    rw [destOf_instrImmToRm, srcOf_instrImmToRm]
    exact ⟨rmOperand_text (wellFormed_instrImmToRm.mp h), _, rfl⟩
  | imm8ToReg | imm16ToReg | memToAcc | accToMem => exact ⟨⟨_, rfl⟩, _, rfl⟩

theorem exec_completes {i : Instr} (h : WellFormed i = true) (s : State) : ∃ t, exec i s = .next t := by
  obtain ⟨⟨d, hd⟩, o, ho⟩ := operandTexts_of_wellFormed h
  exact ⟨_, exec_emits hd ho⟩

/-- An ill-formed term holds the direct address as an expression, which has no text (R104). -/
theorem exec_refuses {i : Instr} (h : ¬ WellFormed i = true) (s : State) :
    exec i s = .refused .directAddressAsExpression := by
  cases i using Instr.byFamily with
  | rmReg d w reg m =>
    obtain rfl := not_not.mp (mt wellFormed_instrByDirection.mpr h)
    obtain rfl | rfl := BitVec.eq_zero_or_eq_one d <;> rfl
  | immToRm x imm m =>
    obtain rfl := not_not.mp (mt wellFormed_instrImmToRm.mpr h)
    rfl
  | imm8ToReg | imm16ToReg | memToAcc | accToMem => exact absurd rfl h

/-- Settles O38: a well-formed instruction's operands have texts, an ill-formed one's register/memory operand has none. -/
theorem execCompletesExactlyWhenWellFormed : Obligations.ExecCompletesExactlyWhenWellFormed := by
  unfold Obligations.ExecCompletesExactlyWhenWellFormed
  exact fun i s => ⟨fun h => exec_completes h s, fun h => exec_refuses (Bool.eq_false_iff.mp h) s⟩

/-- Settles O39: what exec answers is an emission and an advance, which touch `out` and `ip` only. -/
theorem execFrame : Obligations.ExecFrame := by
  unfold Obligations.ExecFrame
  intro i s t h
  obtain ⟨x, -, rfl⟩ := exec_next h
  exact ⟨⟨_, rfl⟩, rfl, rfl, fun _ => rfl⟩

end Sys2Proof.Machine
end

section
/-! PROOF. The lengths of what is printed (30_encoding.md R83, 41_name_tables.md section 2), and that the lines of family 1
tell its instructions apart (42_mov_imm_to_reg.md section 3). -/

namespace Sys2Proof.Machine

open Sys2Proof.Claims

/-! ### The text of one operand -/

@[simp] theorem bracketed_length (t : Text) : (bracketed t).length = t.length + 2 := by
  have hopen : (ascii "[").length = 1 := rfl
  have hclose : (ascii "]").length = 1 := rfl
  rw [bracketed, List.length_append, List.length_append, hopen, hclose]
  omega

/-- A displacement prints as a sign and 1 to 5 digits (R106). -/
theorem dispText_length {d : Int} (hlo : -32768 ≤ d) (hhi : d ≤ 32767) :
    2 ≤ (dispText d).length ∧ (dispText d).length ≤ 6 := by
  have hplus : (ascii "+").length = 1 := rfl
  have hminus : (ascii "-").length = 1 := rfl
  rcases lt_or_ge d 0 with hneg | hnonneg
  · have hdec := dec_length_unsigned (n := -d) (by omega) (by omega)
    rw [dispText_of_neg hneg, List.length_append]
    omega
  · have hdec := dec_length_unsigned hnonneg (by omega)
    rw [dispText_of_nonneg hnonneg, List.length_append]
    omega

theorem memText_none_length {rm : Idx} {t : Text} (h : memText rm none = some t) : 2 ≤ t.length ∧ t.length ≤ 13 := by
  obtain ⟨e, he, rfl⟩ := Option.map_eq_some_iff.mp h
  have hname := eaName_length he
  rw [bracketed_length]
  omega

theorem memText_disp_length {rm : Idx} {d : Int} {t : Text} (hlo : -32768 ≤ d) (hhi : d ≤ 32767)
    (h : memText rm (some d) = some t) : 2 ≤ t.length ∧ t.length ≤ 13 := by
  obtain ⟨e, he, rfl⟩ := Option.map_eq_some_iff.mp h
  have hname := eaName_length he
  have hdisp := dispText_length hlo hhi
  rw [bracketed_length, List.length_append]
  omega

theorem word_toInt_bounds (u : Word) : -32768 ≤ u.toInt ∧ u.toInt ≤ 32767 := by
  have hlo := u.le_toInt
  have hhi := u.toInt_lt
  omega

theorem byte_toInt_bounds (b : Byte) : -128 ≤ b.toInt ∧ b.toInt ≤ 127 := by
  have hlo := b.le_toInt
  have hhi := b.toInt_lt
  omega

/-- A register/memory operand prints in 2 to 13 characters (41_name_tables.md section 2). -/
theorem rmOperand_text_length {w : Width} {m : RmForm} {t : Text} (h : operandText (rmOperand w m) = some t) :
    2 ≤ t.length ∧ t.length ≤ 13 := by
  cases m with
  | register rm =>
    obtain rfl := Option.some.inj h
    rw [regName_length]
    omega
  | expr rm => exact memText_none_length h
  | direct a =>
    obtain rfl := Option.some.inj h
    have hdec := dec_length_unsigned (n := a.toNat) (by omega) (by omega)
    rw [bracketed_length, unsigned16]
    omega
  | disp8 rm d =>
    have hd := byte_toInt_bounds d
    rw [rmOperand_disp8] at h
    exact memText_disp_length (by omega) (by omega) h
  | disp16 rm d =>
    have hd := word_toInt_bounds d
    rw [rmOperand_disp16] at h
    exact memText_disp_length hd.1 hd.2 h

/-- An immediate's number prints in 1 to 6 characters. -/
theorem immValue_text_length (imm : Imm) : 1 ≤ (dec (immValue imm)).length ∧ (dec (immValue imm)).length ≤ 6 := by
  cases imm with
  | imm8 b =>
    have hb := byte_toInt_bounds b
    rw [immValue_imm8]
    exact dec_length (by omega) (by omega)
  | imm16 u =>
    have hu := word_toInt_bounds u
    rw [immValue_imm16]
    exact dec_length (by omega) (by omega)

/-! ### The formatter -/

/-- From the ports of a form the formatter builds the operand the decoder records (R110). -/
theorem formatterOperand_ports (w : Width) {m : RmForm} (h : m ≠ .expr directAddressRm) :
    formatterOperand (formatterPorts m).1 (formatterPorts m).2.1 w (formatterPorts m).2.2 = rmOperand w m := by
  cases m with
  | expr rm =>
    have hrm : rm ≠ directAddressRm := fun hrm => h (congrArg _ hrm)
    exact if_neg hrm
  | register | direct | disp8 | disp16 => rfl

/-- Settles O58: the formatter's operand is the recorded one, and the length is that of a register/memory operand. -/
theorem formatterMatchesTheRecordedOperand : Obligations.FormatterMatchesTheRecordedOperand := by
  unfold Obligations.FormatterMatchesTheRecordedOperand
  intro w m hm
  obtain ⟨t, ht⟩ := rmOperand_text (w := w) hm
  refine ⟨t, ht, ?_, rmOperand_text_length ht⟩
  rw [addressingModeFormatter, formatterOperand_ports w hm, ht]

/-! ### The line -/

theorem reg_text_length {w : Width} {reg : Idx} {t : Text} (h : operandText (.reg w reg) = some t) : t.length = 2 := by
  obtain rfl := Option.some.inj h
  exact regName_length w reg

/-- An immediate prints as 1 to 6 characters, after the five of a qualifier. -/
theorem imm_text_length {imm : Imm} {q : Option Width} {t : Text} (h : operandText (.imm (immValue imm) q) = some t) :
    1 ≤ t.length ∧ t.length ≤ 11 := by
  obtain rfl := Option.some.inj h
  have hnum := immValue_text_length imm
  have hqual := qualifier_length q
  rw [List.length_append]
  omega

/-- The two operands of an instruction print in 3 to 24 characters together: one is a register or an immediate. -/
theorem operandTexts_length {i : Instr} {d o : Text} (hd : operandText (destOf i) = some d)
    (ho : operandText (srcOf i) = some o) : 3 ≤ d.length + o.length ∧ d.length + o.length ≤ 24 := by
  cases i using Instr.byFamily with
  | imm8ToReg reg v =>
    have hreg := reg_text_length hd
    have himm := imm_text_length (imm := .imm8 v) ho
    omega
  | imm16ToReg reg v =>
    have hreg := reg_text_length hd
    have himm := imm_text_length (imm := .imm16 v) ho
    omega
  | rmReg dir w reg m =>
    rw [destOf_instrByDirection] at hd
    rw [srcOf_instrByDirection] at ho
    split at hd
    next hdir =>
      rw [if_pos hdir] at ho
      have hreg := reg_text_length hd
      have hrm := rmOperand_text_length ho
      omega
    next hdir =>
      rw [if_neg hdir] at ho
      have hrm := rmOperand_text_length hd
      have hreg := reg_text_length ho
      omega
  | immToRm x imm m =>
    rw [destOf_instrImmToRm] at hd
    rw [srcOf_instrImmToRm] at ho
    have hrm := rmOperand_text_length hd
    have himm := imm_text_length ho
    omega
  | memToAcc w a =>
    have hreg := reg_text_length hd
    have haddr := rmOperand_text_length (w := w) (m := .direct a) ho
    omega
  | accToMem w a =>
    have haddr := rmOperand_text_length (w := w) (m := .direct a) hd
    have hreg := reg_text_length ho
    omega

/-- A line has 9 to 30 characters before its line feed (R83). -/
theorem recordText_length {i : Instr} {p : Nat} {t : Text} (h : recordText (recordOf i p) = some t) :
    9 ≤ t.length ∧ t.length ≤ 30 := by
  obtain ⟨d, o, hd, ho, rfl⟩ := recordText_eq_some h
  have hoperands := operandTexts_length hd ho
  have hmov : (ascii "mov ").length = 4 := rfl
  have hcomma : (ascii ", ").length = 2 := rfl
  simp only [List.length_append]
  omega

/-- The element exec appends is an instruction's record and its text, a line feed behind it (R25). -/
theorem exec_out {i : Instr} {s t : State} (h : exec i s = .next t) :
    ∃ x, recordText (recordOf i s.ip) = some x ∧ t.out = s.out ++ [⟨recordOf i s.ip, x ++ [lineFeed]⟩] := by
  obtain ⟨x, hx, rfl⟩ := exec_next h
  exact ⟨x, hx, rfl⟩

/-- Settles O55: the bounds hold of the text of any record; `mov al, cl` and `mov [bp+si-32768], word -32768` attain them. -/
theorem lineLengthBounds : Obligations.LineLengthBounds := by
  unfold Obligations.LineLengthBounds
  refine ⟨fun i s t h => ?_, ?_⟩
  · obtain ⟨x, hx, hout⟩ := exec_out h
    have hlen := recordText_length hx
    exact ⟨_, hout, by simpa [Nat.lt_succ_iff] using hlen⟩
  · exact ⟨.movR8Imm8 0 0, .movEaDisp16Imm 0 2 0x8000 (.imm16 0x8000), .reset, _, _, _, _, rfl, rfl, by decide, rfl, rfl,
      by decide⟩

/-! ### The lines of family 1 -/

theorem digitsValue_decNat_any (n : Nat) : digitsValue (decNat n) = n := by
  rcases Nat.eq_zero_or_pos n with rfl | hpos
  · rfl
  · exact digitsValue_decNat hpos

theorem decNat_injective {n k : Nat} (h : decNat n = decNat k) : n = k := by
  rw [← digitsValue_decNat_any n, h, digitsValue_decNat_any]

/-- The digits of a number hold no minus sign. -/
theorem decNat_ne_minus_append (n : Nat) (t : Text) : decNat n ≠ ascii "-" ++ t := by
  intro h
  have hminus : 0x2D ∈ decNat n := h ▸ List.mem_cons_self
  rcases Nat.eq_zero_or_pos n with rfl | hpos
  · exact absurd hminus (by decide)
  · exact absurd (isDigit_of_mem_decNat hpos hminus) (by decide)

theorem dec_of_nonneg {n : Int} (h : 0 ≤ n) : dec n = decNat n.natAbs := if_neg (by omega)

/-- A negative number and one that is not print differently: only the one begins with a minus sign. -/
theorem dec_ne_of_neg_of_nonneg {n k : Int} (hn : n < 0) (hk : 0 ≤ k) : dec n ≠ dec k := by
  intro h
  rw [dec_of_neg hn, dec_of_nonneg hk] at h
  exact decNat_ne_minus_append _ _ h.symm

/-- Different numbers print differently (R108). -/
theorem dec_injective {n k : Int} (h : dec n = dec k) : n = k := by
  rcases lt_or_ge n 0 with hn | hn <;> rcases lt_or_ge k 0 with hk | hk
  · rw [dec_of_neg hn, dec_of_neg hk] at h
    have habs := decNat_injective (List.append_cancel_left h)
    omega
  · exact absurd h (dec_ne_of_neg_of_nonneg hn hk)
  · exact absurd h.symm (dec_ne_of_neg_of_nonneg hk hn)
  · rw [dec_of_nonneg hn, dec_of_nonneg hk] at h
    have habs := decNat_injective h
    omega

/-- The family 1 instruction with the given operands: the immediate's width is the Word bit (R120). -/
def instrImmToReg (reg : Idx) : Imm → Instr
  | .imm8 v => .movR8Imm8 reg v
  | .imm16 v => .movR16Imm16 reg v

/-- The instructions whose opcode byte is in family 1. -/
theorem eq_instrImmToReg_of_classify {i : Instr} (h : classify ((encode i).headD 0) = some .immToReg) :
    ∃ reg imm, i = instrImmToReg reg imm := by
  cases i using Instr.byFamily with
  | imm8ToReg reg v => exact ⟨reg, .imm8 v, rfl⟩
  | imm16ToReg reg v => exact ⟨reg, .imm16 v, rfl⟩
  | rmReg => simp [encodeRmReg] at h
  | immToRm => simp [encodeImmToRm] at h
  | memToAcc => simp [encode] at h
  | accToMem => simp [encode] at h

theorem exec_instrImmToReg (s : State) (reg : Idx) (imm : Imm) :
    exec (instrImmToReg reg imm) s =
      .next (emitted s (.reg imm.width reg) (.imm (immValue imm) none) (instrImmToReg reg imm).length
        (movLine (regName imm.width reg) (dec (immValue imm)))) := by
  cases imm <;> exact exec_emits rfl rfl

/-- Immediates of one width differ in their values. -/
theorem imm_eq_of_value_eq {imm imm' : Imm} (hw : imm.width = imm'.width) (hv : immValue imm = immValue imm') :
    imm = imm' := by
  cases imm with
  | imm8 v =>
    cases imm' with
    | imm8 v' =>
      rw [immValue_imm8, immValue_imm8] at hv
      exact congrArg _ (BitVec.toInt_inj.mp hv)
    | imm16 => cases hw
  | imm16 v =>
    cases imm' with
    | imm8 => cases hw
    | imm16 v' =>
      rw [immValue_imm16, immValue_imm16] at hv
      exact congrArg _ (BitVec.toInt_inj.mp hv)

/-- A line tells its two operands apart when the first has a known length. -/
theorem movLine_injective {d d' o o' : Text} (hlen : d.length = d'.length) (h : movLine d o = movLine d' o') :
    d = d' ∧ o = o' := by
  simp only [movLine, List.append_assoc] at h
  obtain ⟨hd, htail⟩ := List.append_inj (List.append_cancel_left h) hlen
  exact ⟨hd, List.append_cancel_left htail⟩

/-- Family 1 lines determine the register and the immediate: names are of one length and distinct (R101), numbers distinct
(R108). -/
theorem instrImmToReg_line_injective {reg reg' : Idx} {imm imm' : Imm}
    (h : movLine (regName imm.width reg) (dec (immValue imm)) = movLine (regName imm'.width reg') (dec (immValue imm'))) :
    reg = reg' ∧ imm = imm' := by
  obtain ⟨hname, hnum⟩ := movLine_injective (by rw [regName_length, regName_length]) h
  obtain ⟨hw, hreg⟩ := regName_injective hname
  exact ⟨hreg, imm_eq_of_value_eq hw (dec_injective hnum)⟩

/-- Settles O56: equal lines come from equal registers and immediates, so from equal instructions. -/
theorem immToRegLinesDiffer : Obligations.ImmToRegLinesDiffer := by
  unfold Obligations.ImmToRegLinesDiffer
  intro i j s t u e f hi hj hne hexec hexec' hout hout' hline
  obtain ⟨reg, imm, rfl⟩ := eq_instrImmToReg_of_classify hi
  obtain ⟨reg', imm', rfl⟩ := eq_instrImmToReg_of_classify hj
  rw [exec_instrImmToReg] at hexec hexec'
  cases hexec
  cases hexec'
  obtain ⟨rfl⟩ := List.append_cancel_left hout
  obtain ⟨rfl⟩ := List.append_cancel_left hout'
  obtain ⟨rfl, rfl⟩ := instrImmToReg_line_injective (List.append_cancel_right hline)
  exact hne rfl

end Sys2Proof.Machine
end

section
/-! SUPPORT. Everything a failed decode can be (60_exceptions.md R191 to R194): the first byte is missing or in no family,
or a later read is made right behind a byte that exists and misses one of its own. InvalidMode is not among them (R193). -/

namespace Sys2Proof

/-- The rejection of a read behind a byte `k` that exists, when one of the two bytes behind it does not. -/
def Reader.EndsBehind (rd : Reader) (r : Reject) : Prop :=
  ∃ k, k ≤ 3 ∧ r = .outOfRange (k + 1) ∧ (rd.byte k).isSome ∧ (rd.byte (k + 1) = none ∨ rd.byte (k + 2) = none)

/-- The read at offset 1 fails behind the opcode byte. -/
theorem Reader.endsBehind_opcode {rd : Reader} {b : Byte} {r : Reject} (h0 : rd.byte 0 = some b)
    (h : r = .outOfRange 1 ∧ (rd.byte 1 = none ∨ rd.byte 2 = none)) : rd.EndsBehind r :=
  ⟨0, by omega, h.1, Option.isSome_of_eq_some h0, h.2⟩

/-- The read of the displacement or address fails behind the mod byte. -/
theorem Reader.endsBehind_modByte {rd : Reader} {b : Byte} {r : Reject} (h1 : rd.byte 1 = some b)
    (h : r = .outOfRange 2 ∧ (rd.byte 2 = none ∨ rd.byte 3 = none)) : rd.EndsBehind r :=
  ⟨1, by omega, h.1, Option.isSome_of_eq_some h1, h.2⟩

theorem Reader.readByte_one_error {rd : Reader} {r : Reject} (h : rd.readByte 1 = .error r) :
    r = .outOfRange 1 ∧ (rd.byte 1 = none ∨ rd.byte 2 = none) :=
  (Reader.readByte_error h).imp_right .inl

theorem RmForm.dispSize_le (m : RmForm) : m.dispSize ≤ 2 := by
  cases m <;> simp [RmForm.dispSize]

theorem Reader.Coherent.decodeImmToReg_error {rd : Reader} (c : rd.Coherent) {b0 : Byte} {r : Reject}
    (h : decodeImmToReg rd b0 = .error r) : r = .outOfRange 1 ∧ (rd.byte 1 = none ∨ rd.byte 2 = none) := by
  unfold decodeImmToReg at h
  split at h
  · exact Reader.readByte_one_error (except_map_error h)
  · exact c.readWord_error (except_map_error h)

/-- A family 2 decode fails on its mod byte or on its displacement or address (R130). -/
theorem Reader.Coherent.decodeRmReg_error {rd : Reader} (c : rd.Coherent) {b0 b : Byte} {r : Reject}
    (h0 : rd.byte 0 = some b) (h : decodeRmReg rd b0 = .error r) : rd.EndsBehind r := by
  obtain h | ⟨b1, h1, h⟩ := except_bind_error h
  · exact Reader.endsBehind_opcode h0 (Reader.readByte_one_error h)
  · have h1 := Reader.readByte_eq_ok_iff.mp h1
    obtain h | ⟨m, -, h⟩ := except_bind_error h
    · exact Reader.endsBehind_modByte h1 (decodeRm_error c h)
    · split at h <;> cases h

/-- A family 3 decode fails as one of family 2, or on the immediate behind its displacement or address (R150). -/
theorem Reader.Coherent.decodeImmToRm_error {rd : Reader} (c : rd.Coherent) {b0 b : Byte} {r : Reject}
    (h0 : rd.byte 0 = some b) (h : decodeImmToRm rd b0 = .error r) : rd.EndsBehind r := by
  obtain h | ⟨b1, h1, h⟩ := except_bind_error h
  · exact Reader.endsBehind_opcode h0 (Reader.readByte_one_error h)
  · have h1 := Reader.readByte_eq_ok_iff.mp h1
    obtain h | ⟨m, hm, h⟩ := except_bind_error h
    · exact Reader.endsBehind_modByte h1 (decodeRm_error c h)
    · obtain h | ⟨imm, -, h⟩ := except_bind_error h
      · obtain ⟨hr, hnone⟩ := c.readImm_error h
        have hsize := m.dispSize_le
        have hsucc : 2 + m.dispSize = 1 + m.dispSize + 1 := by omega
        rw [hsucc] at hr hnone
        exact ⟨1 + m.dispSize, by omega, hr, decodeRm_lastByte c h1 hm, hnone⟩
      · cases h

/-- Everything a failed decode can be. -/
theorem Reader.Coherent.decode_error {rd : Reader} (c : rd.Coherent) {r : Reject} (h : decode rd = .error r) :
    (rd.byte 0 = none ∧ r = .outOfRange 0) ∨
    (∃ b0, rd.byte 0 = some b0 ∧ classify b0 = none ∧ r = .unsupportedOpcode b0) ∨
    (∃ b0, rd.byte 0 = some b0 ∧ classify b0 ≠ none ∧ rd.EndsBehind r) := by
  obtain h | ⟨b0, h0, h⟩ := except_bind_error h
  · exact .inl (Reader.readByte_error h).symm
  · have h0 := Reader.readByte_eq_ok_iff.mp h0
    split at h
    next hc =>
      cases h
      exact .inr (.inl ⟨b0, h0, hc, rfl⟩)
    next hc => exact .inr (.inr ⟨b0, h0, by simp [hc], Reader.endsBehind_opcode h0 (c.decodeImmToReg_error h)⟩)
    next hc => exact .inr (.inr ⟨b0, h0, by simp [hc], c.decodeRmReg_error h0 h⟩)
    next hc => exact .inr (.inr ⟨b0, h0, by simp [hc], c.decodeImmToRm_error h0 h⟩)
    next hc =>
      exact .inr (.inr ⟨b0, h0, by simp [hc], Reader.endsBehind_opcode h0 (c.readWord_error (except_map_error h))⟩)
    next hc =>
      exact .inr (.inr ⟨b0, h0, by simp [hc], Reader.endsBehind_opcode h0 (c.readWord_error (except_map_error h))⟩)

end Sys2Proof
end

section
/-! PROOF. What a step can answer in each status (46_decode_loop.md section 2, 93_implementation_defined.md part A), and
that a latched error is explained by the bytes at `ip` (60_exceptions.md sections 1 and 2). -/

namespace Sys2Proof.Machine

/-- Settles O29: a run that has ended is answered by its own state (log entry 4). -/
theorem terminalStatesDoNotChange : Obligations.TerminalStatesDoNotChange := by
  unfold Obligations.TerminalStatesDoNotChange
  intro s hend
  obtain hdone | hfailed := hend
  · simp [step, hdone]
  · simp [step, hfailed]

/-- Settles O32: no status, so the fault (log entry 5). -/
theorem ipPastTheEndFaults : Obligations.IpPastTheEndFaults := by
  unfold Obligations.IpPastTheEndFaults
  intro s hnone hpast
  have hstatus : s.status = none := by
    rw [State.status, if_neg (by simp [hnone]), if_neg (by omega), if_neg (by omega)]
  simp [step, hstatus]

/-- What is fetched is well formed. -/
theorem State.wellFormed_of_fetch {s : State} {i : Instr} (h : s.fetch = .ok i) : WellFormed i = true :=
  (s.reader_coherent.wellFormed_and_holds_of_decode h).1

/-- In `Scanning` the step is never refused: what is fetched completes, and what rejects the bytes is raised (R186). -/
theorem step_completes_of_scanning {s : State} (hs : s.status = some .scanning) : ∃ t, step s = .next t := by
  cases hfetch : s.fetch with
  | ok i =>
    rw [step_of_fetch_ok hs hfetch]
    exact exec_completes (State.wellFormed_of_fetch hfetch) s
  | error r => exact ⟨_, step_of_fetch_error hs hfetch⟩

/-- A state of a run has ended or is in `Scanning` (R22, R23). -/
theorem State.ended_or_scanning {s : State} (h : s.err ≠ none ∨ s.ip ≤ s.buf.size) :
    s.ended ∨ s.status = some .scanning := by
  by_cases herr : s.err = none
  · have hip : s.ip ≤ s.buf.size := h.resolve_left (not_not.mpr herr)
    rcases Nat.lt_or_eq_of_le hip with hlt | heq
    · exact .inr (s.status_scanning_iff.mpr ⟨herr, hlt⟩)
    · exact .inl (.inl (s.status_done_iff.mpr ⟨herr, heq⟩))
  · exact .inl (.inr (s.status_failed_iff.mpr herr))

/-- Settles O31: the state has ended or is in `Scanning`. -/
theorem everyRunStateHasANextState : Obligations.EveryRunStateHasANextState := by
  unfold Obligations.EveryRunStateHasANextState
  intro s h
  obtain hend | hs := State.ended_or_scanning h
  · exact ⟨s, terminalStatesDoNotChange s hend⟩
  · exact step_completes_of_scanning hs

/-! ### Latched errors -/

/-- The record raised in `Scanning` is explained by the bytes at `ip` (R191 to R193). -/
theorem State.explains_errorOf {s : State} {r : Reject} (hs : s.status = some .scanning) (h : s.fetch = .error r) :
    s.Explains (s.errorOf r) := by
  have hlt : s.ip < s.buf.size := (s.status_scanning_iff.mp hs).2
  obtain ⟨hnone, -⟩ | ⟨b0, h0, hc, rfl⟩ | ⟨b0, h0, hc, k, -, rfl, hsome, hmiss⟩ := s.reader_coherent.decode_error h
  · exact absurd ((Memory.readByte_of_lt hlt).symm.trans hnone) (by simp)
  · obtain ⟨-, rfl⟩ := Memory.readByte_eq_some_iff.mp h0
    exact ⟨hlt, rfl, .inl ⟨rfl, rfl, hc⟩⟩
  · obtain ⟨-, rfl⟩ := Memory.readByte_eq_some_iff.mp h0
    have hin : s.ip + k < s.buf.size := (s.buf.readByte_isSome_iff _).mp hsome
    have hout : s.buf.size ≤ s.ip + k + 2 := by
      by_contra hout
      simp [Memory.readByte_of_lt (m := s.buf) (a := s.ip + (k + 1)) (by omega),
        Memory.readByte_of_lt (m := s.buf) (a := s.ip + (k + 2)) (by omega)] at hmiss
    refine ⟨hlt, rfl, .inr ⟨rfl, ?_, ?_, ?_, hc⟩⟩ <;> simp only [State.errorOf] <;> omega

theorem State.Explains.kind_ne_invalidMode {s : State} {e : ErrRecord} (h : s.Explains e) : e.kind ≠ .invalidMode := by
  obtain ⟨-, -, ⟨hkind, -⟩ | ⟨hkind, -⟩⟩ := h <;> simp [hkind]

/-- Settles O28: a step that latches an error is a raise in `Scanning`, whose record is explained. -/
theorem latchedErrorsAreExplained : Obligations.LatchedErrorsAreExplained := by
  unfold Obligations.LatchedErrorsAreExplained
  intro s t e hnone h hlatched
  obtain ⟨-, rfl⟩ | ⟨-, i, -, hexec⟩ | ⟨hs, r, hr, rfl⟩ := step_next h
  · simp [hnone] at hlatched
  · obtain ⟨x, -, rfl⟩ := exec_next hexec
    simp [hnone] at hlatched
  · obtain rfl := Option.some.inj hlatched
    have hexplained := State.explains_errorOf hs hr
    exact ⟨hexplained, hexplained.kind_ne_invalidMode⟩

end Sys2Proof.Machine
end

section
/-! PROOF. The invariant of Sys2Proof/Safety.lean (10_state.md sections 2 and 3): an emitted element covers the bytes of its
instruction and is well made, a raised error is explained, and a step at the end of a run changes nothing. -/

namespace Sys2Proof.Machine

/-- One more element, starting where the others end. -/
theorem contiguous_append_singleton {lo mid : Nat} {es : List OutElem} {e : OutElem} (h : contiguous lo es mid)
    (he : e.record.start = mid) : contiguous lo (es ++ [e]) (mid + e.record.len) := by
  induction es generalizing lo with
  | nil =>
    obtain rfl : lo = mid := h
    exact ⟨he, rfl⟩
  | cons f es ih =>
    obtain ⟨hstart, htail⟩ := h
    exact ⟨hstart, ih htail⟩

/-- What an instruction emits is well made (R25, R70, R83). -/
theorem OutElem.wf_of_recordText {i : Instr} {p : Nat} {x : Text} (h : recordText (recordOf i p) = some x) :
    OutElem.Wf ⟨recordOf i p, x ++ [lineFeed]⟩ := by
  have ⟨hlo, hhi⟩ := i.length_bounds
  exact ⟨hlo, hhi, x, h, rfl, recordText_length h⟩

/-- What the instruction at `ip` emits is what a step at its offset emits in a fresh state: `out` and the elements before it
have no say. -/
theorem OutElem.decodedFrom_of_fetch {s : State} {i : Instr} {x : Text} (hs : s.status = some .scanning)
    (hi : s.fetch = .ok i) (hx : recordText (recordOf i s.ip) = some x) :
    OutElem.DecodedFrom ⟨recordOf i s.ip, x ++ [lineFeed]⟩ s.buf := by
  have hfresh : State.status ⟨s.ip, none, [], s.buf⟩ = some .scanning :=
    (State.status_scanning_iff _).mpr ⟨rfl, (s.status_scanning_iff.mp hs).2⟩
  have hstep := step_of_fetch_ok hfresh hi
  rw [exec_eq_completeMov] at hstep
  exact ⟨_, hstep.trans (completeMov_of_text hx), rfl⟩

/-- Emitting the instruction at `ip` keeps the invariant. -/
theorem State.Inv.emit_advance {s : State} {i : Instr} {x : Text} (hinv : s.Inv) (hs : s.status = some .scanning)
    (hi : s.fetch = .ok i) (hx : recordText (recordOf i s.ip) = some x) :
    ((s.emit (recordOf i s.ip) x).advance i.length).Inv where
  bufCanonical := hinv.bufCanonical
  ipInRange := State.ip_add_length_le_of_fetch hi
  outCovers := contiguous_append_singleton hinv.outCovers rfl
  outWf := by
    intro e he
    obtain he | rfl := List.mem_append.mp he |>.imp_right List.mem_singleton.mp
    · exact hinv.outWf e he
    · exact OutElem.wf_of_recordText hx
  outDecoded := by
    intro e he
    obtain he | rfl := List.mem_append.mp he |>.imp_right List.mem_singleton.mp
    · exact hinv.outDecoded e he
    · exact OutElem.decodedFrom_of_fetch hs hi hx
  errExplained := by
    intro e he
    have hnone : s.err = none := (s.status_scanning_iff.mp hs).1
    simp [hnone] at he

/-- Raising an explained error keeps the invariant. -/
theorem State.Inv.raise {s : State} {e : ErrRecord} (hinv : s.Inv) (he : s.Explains e) : (s.raise e).Inv :=
  { hinv with errExplained := fun _ he' => Option.some.inj he' ▸ he }

theorem step_keeps_inv {s t : State} (hinv : s.Inv) (h : step s = .next t) : t.Inv := by
  obtain ⟨-, rfl⟩ | ⟨hs, i, hi, hexec⟩ | ⟨hs, r, hr, rfl⟩ := step_next h
  · exact hinv
  · obtain ⟨x, hx, rfl⟩ := exec_next hexec
    exact hinv.emit_advance hs hi hx
  · exact hinv.raise (State.explains_errorOf hs hr)

/-- Settles O42: the three things a step can be each keep the invariant. -/
theorem stepKeepsTheInvariant : Obligations.StepKeepsTheInvariant := by
  unfold Obligations.StepKeepsTheInvariant
  exact fun _ _ => step_keeps_inv

/-- A new run on a canonical buffer meets the invariant: nothing is emitted and no error latched. -/
theorem State.inv_of_fresh {m : Memory} (h : m.wf = true) : State.Inv ⟨0, none, [], m⟩ :=
  ⟨h, Nat.zero_le _, rfl, nofun, nofun, nofun⟩

/-- Settles O43: the reset buffer and a loaded one are canonical. -/
theorem resetAndLoadMeetTheInvariant : Obligations.ResetAndLoadMeetTheInvariant := by
  unfold Obligations.ResetAndLoadMeetTheInvariant
  exact ⟨State.inv_of_fresh Memory.reset_wf, fun _ bs => State.inv_of_fresh (Memory.ofBytes_wf bs)⟩

end Sys2Proof.Machine
end

section
/-! PROOF. The byte buffer (20_memory.md sections 1 to 3): a loaded buffer reads as the bytes loaded, and the canonical form
leaves one buffer for what is read. -/

namespace Sys2Proof.Machine

/-! ### A loaded buffer -/

@[simp] theorem Memory.ofBytes_size (bs : List Byte) : (Memory.ofBytes bs).size = bs.length := by
  have hsize := (Memory.pokeBytes_end bs (m := ⟨0, []⟩) rfl).1
  rwa [Nat.zero_add] at hsize

@[simp] theorem Memory.readByte_ofBytes (bs : List Byte) (a : Nat) : (Memory.ofBytes bs).readByte a = bs[a]? :=
  (Memory.pokeBytes_end bs (m := ⟨0, []⟩) rfl).2 a

/-- Settles O8: bytes placed in the empty buffer are read back, and a word read is two byte reads. -/
theorem loadedBytesAreReadBack : Obligations.LoadedBytesAreReadBack := by
  unfold Obligations.LoadedBytesAreReadBack
  intro bs a
  refine ⟨Memory.ofBytes_size bs, Memory.readByte_ofBytes bs a, fun lo hi hlo hhi => ?_, fun hshort => ?_⟩
  · exact Memory.readWord_eq_some_iff.mpr
      ⟨lo, hi, (Memory.readByte_ofBytes bs a).trans hlo, (Memory.readByte_ofBytes bs (a + 1)).trans hhi, rfl⟩
  · exact Memory.readWord_of_ge ((Memory.ofBytes_size bs).trans_le hshort)

/-! ### Canonical buffers -/

theorem Memory.cellsWf_cons {n lo k : Nat} {v : Byte} {cs : List Host.Cell} :
    Memory.cellsWf n lo ((k, v) :: cs) = true ↔
      lo ≤ k ∧ k < n ∧ v ≠ Memory.unlisted ∧ Memory.cellsWf n (k + 1) cs = true := by
  simp [Memory.cellsWf, and_assoc]

/-- The first cell's offset is the least at which a canonical list reads as something listed. -/
theorem Memory.firstOffset_le {n lo lo' k k' : Nat} {v v' : Byte} {cs cs' : List Host.Cell}
    (h : Memory.cellsWf n lo ((k, v) :: cs) = true) (h' : Memory.cellsWf n lo' ((k', v') :: cs') = true)
    (heq : Memory.lookup ((k, v) :: cs) k = Memory.lookup ((k', v') :: cs') k) : k' ≤ k := by
  obtain ⟨-, -, hv, -⟩ := Memory.cellsWf_cons.mp h
  obtain ⟨-, hk', hv', htail'⟩ := Memory.cellsWf_cons.mp h'
  by_contra hlt
  have hbelow : Memory.lookup ((k', v') :: cs') k = Memory.unlisted :=
    Memory.lookup_of_lt (Memory.cellsWf_cons.mpr ⟨le_rfl, hk', hv', htail'⟩) (by omega)
  rw [Memory.lookup, if_pos rfl, hbelow] at heq
  exact hv heq

/-- Canonical lists that look up alike below `N` are equal, cell by cell. -/
theorem Memory.cells_eq_of_lookup_eq {n lo : Nat} {cs cs' : List Host.Cell} (h : Memory.cellsWf n lo cs = true)
    (h' : Memory.cellsWf n lo cs' = true) (heq : ∀ a < n, Memory.lookup cs a = Memory.lookup cs' a) : cs = cs' := by
  induction cs generalizing lo cs' with
  | nil =>
    cases cs' with
    | nil => rfl
    | cons c cs' =>
      obtain ⟨k, v⟩ := c
      obtain ⟨-, hk, hv, -⟩ := Memory.cellsWf_cons.mp h'
      have hlisted := heq k hk
      rw [Memory.lookup, Memory.lookup, if_pos rfl] at hlisted
      exact absurd hlisted.symm hv
  | cons c cs ih =>
    obtain ⟨k, v⟩ := c
    obtain ⟨-, hk, hv, htail⟩ := Memory.cellsWf_cons.mp h
    cases cs' with
    | nil =>
      have hlisted := heq k hk
      rw [Memory.lookup, Memory.lookup, if_pos rfl] at hlisted
      exact absurd hlisted hv
    | cons c' cs' =>
      obtain ⟨k', v'⟩ := c'
      obtain ⟨-, hk', -, htail'⟩ := Memory.cellsWf_cons.mp h'
      obtain rfl : k = k' :=
        le_antisymm (Memory.firstOffset_le h' h (heq k' hk').symm) (Memory.firstOffset_le h h' (heq k hk))
      have hcell := heq k hk
      rw [Memory.lookup, Memory.lookup, if_pos rfl, if_pos rfl] at hcell
      subst hcell
      refine congrArg _ (ih htail htail' fun a ha => ?_)
      rcases Nat.lt_or_ge k a with hlt | hge
      · have hrest := heq a ha
        rwa [Memory.lookup, Memory.lookup, if_neg (by omega), if_neg (by omega)] at hrest
      · rw [Memory.lookup_of_lt htail (by omega), Memory.lookup_of_lt htail' (by omega)]

/-- Settles O9: below the common length the reads are the cells' lookups, which determine canonical cells. -/
theorem equalReadsAreEqualBuffers : Obligations.EqualReadsAreEqualBuffers := by
  unfold Obligations.EqualReadsAreEqualBuffers
  intro m n hm hn hsize hreads
  have hcells : m.cells = n.cells := by
    rw [Memory.wf, ← hsize] at hn
    refine Memory.cells_eq_of_lookup_eq hm hn fun a ha => ?_
    have hread := hreads a
    rwa [Memory.readByte_of_lt ha, Memory.readByte_of_lt (ha.trans_eq hsize), Option.some.injEq] at hread
  exact (Memory.mk.injEq ..).mpr ⟨hsize, hcells⟩

end Sys2Proof.Machine
end

section
/-! PROOF. Runs (46_decode_loop.md section 2, 20_memory.md R50, 70_reset_and_hazards.md section 4): what every step keeps, a
run keeps; and a run from `ip <= N` ends, since each step that does not end it takes at least two bytes. -/

namespace Sys2Proof.Machine

/-! ### Steps of a run -/

theorem run_succ_of_next {s t : State} (h : step s = .next t) (k : Nat) :
    Host.Core.run core (k + 1) s = Host.Core.run core k t := by
  have hcore : core.step s = .next t := h
  simp only [Host.Core.run, hcore]

/-- A run that has not stopped made its first step. -/
theorem run_succ_next {s u : State} {k : Nat} (h : Host.Core.run core (k + 1) s = .next u) :
    ∃ t, step s = .next t ∧ Host.Core.run core k t = .next u := by
  cases hstep : step s with
  | next t => exact ⟨t, rfl, (run_succ_of_next hstep k).symm.trans h⟩
  | fault r =>
    have hcore : core.step s = .fault r := hstep
    simp only [Host.Core.run, hcore] at h
    cases h
  | refused r =>
    have hcore : core.step s = .refused r := hstep
    simp only [Host.Core.run, hcore] at h
    cases h

/-- What every step keeps, a run keeps. -/
theorem run_keeps {P : State → Prop} (hstep : ∀ s t, P s → step s = .next t → P t) {s t : State} {k : Nat} (hs : P s)
    (h : Host.Core.run core k s = .next t) : P t := by
  induction k generalizing s with
  | zero =>
    cases h
    exact hs
  | succ k ih =>
    obtain ⟨u, hu, hrun⟩ := run_succ_next h
    exact ih (hstep s u hs hu) hrun

/-- A longer run goes on from where the shorter one is. -/
theorem run_add_next {s t u : State} {k j : Nat} (hk : Host.Core.run core k s = .next t)
    (hkj : Host.Core.run core (k + j) s = .next u) : Host.Core.run core j t = .next u := by
  induction k generalizing s with
  | zero =>
    cases hk
    rwa [Nat.zero_add] at hkj
  | succ k ih =>
    obtain ⟨v, hv, hrun⟩ := run_succ_next hk
    rw [Nat.add_right_comm, run_succ_of_next hv] at hkj
    exact ih hrun hkj

/-! ### What a run keeps -/

/-- A step writes no byte of the buffer, and no element of `out` that is there. -/
theorem step_frame {s t : State} (h : step s = .next t) : t.buf = s.buf ∧ s.out <+: t.out := by
  obtain ⟨-, rfl⟩ | ⟨-, i, -, hexec⟩ | ⟨-, r, -, rfl⟩ := step_next h
  · exact ⟨rfl, List.prefix_rfl⟩
  · obtain ⟨x, -, rfl⟩ := exec_next hexec
    exact ⟨rfl, List.prefix_append _ _⟩
  · exact ⟨rfl, List.prefix_rfl⟩

theorem run_buf {s t : State} {k : Nat} (h : Host.Core.run core k s = .next t) : t.buf = s.buf :=
  run_keeps (P := fun u => u.buf = s.buf) (fun _ _ hs hstep => (step_frame hstep).1.trans hs) rfl h

/-- Settles O41: a run keeps the buffer, and a loaded buffer reads as the bytes loaded. -/
theorem loadedBytesStayReadable : Obligations.LoadedBytesStayReadable := by
  unfold Obligations.LoadedBytesStayReadable
  intro s t bs k a h
  rw [run_buf h, State.load_buf, Memory.readByte_ofBytes]

/-- Settles O46: from the earlier point on, a run keeps the output read there as the beginning of `out`. -/
theorem earlierOutputIsTheBeginning : Obligations.EarlierOutputIsTheBeginning := by
  unfold Obligations.EarlierOutputIsTheBeginning
  intro s t u k j hk hkj
  have hprefix : t.out <+: u.out :=
    run_keeps (P := fun v => t.out <+: v.out) (fun v w hv hstep => hv.trans (step_frame hstep).2) List.prefix_rfl
      (run_add_next hk hkj)
  obtain ⟨more, hmore⟩ := hprefix
  exact ⟨more, hmore.symm⟩

/-- The lengths of elements without gap sum to the distance they cover. -/
theorem contiguous_sum {lo hi : Nat} {es : List OutElem} (h : contiguous lo es hi) :
    lo + (es.map fun e => e.record.len).sum = hi := by
  induction es generalizing lo with
  | nil => exact h
  | cons e es ih =>
    rw [List.map_cons, List.sum_cons, ← Nat.add_assoc]
    exact ih h.2

theorem run_inv {s t : State} {k : Nat} (hs : s.Inv) (h : Host.Core.run core k s = .next t) : t.Inv :=
  run_keeps (fun _ _ => step_keeps_inv) hs h

/-- Settles O45: the invariant holds at every point of a run on a loaded buffer, and says that the records cover the bytes
below `ip` and that a latched error stands below `N`. -/
theorem emittedLengthsSumToIp : Obligations.EmittedLengthsSumToIp := by
  unfold Obligations.EmittedLengthsSumToIp
  intro s t bs k h
  have hinv : t.Inv := run_inv (resetAndLoadMeetTheInvariant.2 s bs) h
  have hsize : t.buf.size = bs.length := by rw [run_buf h, State.load_buf, Memory.ofBytes_size]
  have hsum := contiguous_sum hinv.outCovers
  rw [Nat.zero_add] at hsum
  refine ⟨hsum, hinv.outCovers, fun hdone => ?_, fun hfailed => ?_⟩
  · exact (t.status_done_iff.mp hdone).2.trans hsize
  · obtain ⟨e, he⟩ := Option.ne_none_iff_exists'.mp (t.status_failed_iff.mp hfailed)
    obtain ⟨hlt, -⟩ := hinv.errExplained e he
    exact hlt.trans_eq hsize

/-! ### The end of a run -/

/-- A run that has ended stays where it is (log entry 4). -/
theorem run_of_ended {s : State} (h : s.ended) (k : Nat) : Host.Core.run core k s = .next s := by
  induction k with
  | zero => rfl
  | succ k ih => rw [run_succ_of_next (terminalStatesDoNotChange s h), ih]

/-- A step in `Scanning` ends the run with an error or takes at least two bytes of the buffer (R181, R185). -/
theorem step_ends_or_advances {s t : State} (hs : s.status = some .scanning) (h : step s = .next t) :
    t.ended ∨ (s.ip + 2 ≤ t.ip ∧ t.ip ≤ t.buf.size ∧ t.buf = s.buf) := by
  obtain ⟨i, x, hi, -, rfl⟩ | ⟨r, -, rfl⟩ := step_next_of_scanning hs h
  · exact .inr ⟨Nat.add_le_add_left i.length_bounds.1 _, State.ip_add_length_le_of_fetch hi, rfl⟩
  · exact .inl (.inr rfl)

/-- Twice as many steps as remaining bytes, and more, reach the end. -/
theorem run_ends {s : State} {k : Nat} (hip : s.ip ≤ s.buf.size) (hk : s.buf.size - s.ip < 2 * k) :
    ∃ t, Host.Core.run core k s = .next t ∧ t.ended := by
  induction k generalizing s with
  | zero => omega
  | succ k ih =>
    obtain hend | hs := State.ended_or_scanning (.inr hip)
    · exact ⟨s, run_of_ended hend _, hend⟩
    · obtain ⟨t, hstep⟩ := step_completes_of_scanning hs
      rw [run_succ_of_next hstep]
      obtain hend | ⟨hadvance, hin, hbuf⟩ := step_ends_or_advances hs hstep
      · exact ⟨t, run_of_ended hend k, hend⟩
      · exact ih hin (by rw [hbuf] at hin ⊢; omega)

/-- Settles O44: half the remaining bytes, and one more, is enough. -/
theorem runEndsWithinHalfTheBuffer : Obligations.RunEndsWithinHalfTheBuffer := by
  unfold Obligations.RunEndsWithinHalfTheBuffer
  exact fun s hip => run_ends hip (by omega)

end Sys2Proof.Machine
end

section
/-! PROOF. The classifier (40_opcode_classifier.md R91, R92; 30_encoding.md R74): no byte matches two of its rows, so their
order does not matter; and the bytes that match one. -/

namespace Sys2Proof

/-- At most one row matches a byte. -/
theorem classifierTable_matches_le_one :
    ∀ b : Byte, (classifierTable.filter fun r => b &&& r.mask == r.pattern).length ≤ 1 := by decide

/-- Where at most one element is found, the order of the list does not matter. -/
theorem find?_eq_of_perm {α : Type} {p : α → Bool} {l l' : List α} (h : l.Perm l') (hone : (l'.filter p).length ≤ 1) :
    l.find? p = l'.find? p := by
  have hfilter : (l.filter p).Perm (l'.filter p) := h.filter p
  rw [← List.head?_filter, ← List.head?_filter]
  rcases Nat.le_one_iff_eq_zero_or_eq_one.mp hone with hzero | hone
  · rw [List.length_eq_zero_iff.mp hzero] at hfilter ⊢
    rw [hfilter.eq_nil]
  · obtain ⟨x, hx⟩ := List.length_eq_one_iff.mp hone
    rw [hx] at hfilter ⊢
    rw [hfilter.eq_singleton]

/-- The ordered list of tests (R92). -/
theorem classify_eq (b : Byte) :
    classify b =
      if b &&& 0xF0 = 0xB0 then some .immToReg
      else if b &&& 0xFC = 0x88 then some .rmReg
      else if b &&& 0xFE = 0xC6 then some .immToRm
      else if b &&& 0xFE = 0xA0 then some .memToAcc
      else if b &&& 0xFE = 0xA2 then some .accToMem
      else none := by
  revert b; decide

/-- Settles O4: the tests in order, and at most one row that matches. -/
theorem classifierFollowsTheTableInAnyOrder : Obligations.ClassifierFollowsTheTableInAnyOrder := by
  unfold Obligations.ClassifierFollowsTheTableInAnyOrder
  refine ⟨classify_eq, fun rows hrows b => ?_⟩
  rw [classify, classifyWith, classifyWith, find?_eq_of_perm hrows (classifierTable_matches_le_one b)]

/-- Settles O5: the 256 bytes are classified. -/
theorem acceptedOpcodeBytes : Obligations.AcceptedOpcodeBytes := by
  unfold Obligations.AcceptedOpcodeBytes
  exact ⟨by decide, by rfl⟩

end Sys2Proof
end

section
/-! PROOF. The opcode table (30_encoding.md R77): the opcode byte leaves the rows of one instruction or of one direction and
family, and the second byte leaves one of them. -/

namespace Sys2Proof

/-- The part of a row's test that reads the opcode byte. -/
def TableRow.hitsOpcode (r : TableRow) (b0 : Byte) : Bool := b0 &&& r.mask == r.pattern

/-- The part of a row's test that reads the second byte. -/
def TableRow.hitsSecond (r : TableRow) (b1 : Byte) : Bool :=
  b1 &&& r.modMask == r.modPattern && !(r.excludeDirect && b1 &&& 0xC7 == 0x06)

/-- The rows an opcode byte leaves. -/
def rowsOfOpcode (b0 : Byte) : List TableRow := opcodeTable.filter fun r => r.hitsOpcode b0

/-- The rows a pair of bytes matches: first by the opcode byte, then by the second. -/
theorem filter_hits (b0 b1 : Byte) :
    (opcodeTable.filter fun r => r.hits b0 b1) = (rowsOfOpcode b0).filter fun r => r.hitsSecond b1 := by
  rw [rowsOfOpcode, List.filter_filter]
  refine List.filter_congr fun r _ => ?_
  rw [TableRow.hits, TableRow.hitsOpcode, TableRow.hitsSecond, Bool.and_assoc, Bool.and_comm]

/-! ### The rows an opcode byte leaves, by their places in the table -/

theorem rowsOfOpcode_opImmToReg (w : Width) (reg : Idx) :
    rowsOfOpcode (opImmToReg w reg) = (opcodeTable.drop w.toNat).take 1 := by
  cases w <;> revert reg <;> decide

/-- The first of the five rows of a Direction of family 2. -/
def firstRowOfDirection (d : BitVec 1) : Nat := if d = 1 then 7 else 2

theorem firstRowOfDirection_cases (d : BitVec 1) :
    firstRowOfDirection d = 2 ∨ firstRowOfDirection d = 7 ∨ firstRowOfDirection d = 12 := by
  revert d; decide

theorem rowsOfOpcode_opRmReg (d : BitVec 1) (w : Width) :
    rowsOfOpcode (opRmReg d w) = (opcodeTable.drop (firstRowOfDirection d)).take 5 := by
  cases w <;> revert d <;> decide

theorem rowsOfOpcode_opImmToRm (w : Width) : rowsOfOpcode (opImmToRm w) = (opcodeTable.drop 12).take 5 := by
  cases w <;> decide

theorem rowsOfOpcode_opMemToAcc (w : Width) : rowsOfOpcode (opMemToAcc w) = (opcodeTable.drop 17).take 1 := by
  cases w <;> decide

theorem rowsOfOpcode_opAccToMem (w : Width) : rowsOfOpcode (opAccToMem w) = (opcodeTable.drop 18).take 1 := by
  cases w <;> decide

theorem rowsOfOpcode_of_rejected : ∀ b0, classify b0 = none → rowsOfOpcode b0 = [] := by decide

/-! ### The row the second byte leaves -/

/-- The place of a form's row among the five of its Direction or family. -/
def RmForm.row : RmForm → Nat
  | .register _ => 0
  | .expr _ => 1
  | .direct _ => 2
  | .disp8 _ _ => 3
  | .disp16 _ _ => 4

/-- The mnemonic of the row at a place. -/
def mnemonicAt (k : Nat) : String := (opcodeTable.map TableRow.mnemonic).getD k ""

theorem mnemonic_instrByDirection (d : BitVec 1) (w : Width) (reg : Idx) (m : RmForm) :
    (instrByDirection d w reg m).mnemonic = mnemonicAt (firstRowOfDirection d + m.row) := by
  obtain rfl | rfl := BitVec.eq_zero_or_eq_one d <;> cases m <;> rfl

theorem mnemonic_instrImmToRm (x : Idx) (imm : Imm) (m : RmForm) :
    (instrImmToRm x imm m).mnemonic = mnemonicAt (12 + m.row) := by
  cases m <;> rfl

/-- The place of the row a mod byte leaves among the five, by its Mode and RegMem fields. -/
def rowOfMode (mode : BitVec 2) (rm : Idx) : Nat :=
  if mode = 3 then 0 else if mode = 0 then (if rm = directAddressRm then 2 else 1) else if mode = 1 then 3 else 4

theorem rows_of_mode {k : Nat} (hk : k = 2 ∨ k = 7 ∨ k = 12) (mode : BitVec 2) (reg rm : Idx) :
    (((opcodeTable.drop k).take 5).filter fun r => r.hitsSecond (modByteOf mode reg rm)).map TableRow.mnemonic =
      [mnemonicAt (k + rowOfMode mode rm)] := by
  obtain rfl | rfl | rfl := hk <;> revert mode reg rm <;> decide

/-- Of the five rows of a Direction or family, the mod byte of a form leaves the form's own (R69). -/
theorem rows_of_rmBytes {k : Nat} (hk : k = 2 ∨ k = 7 ∨ k = 12) {m : RmForm} (hm : m ≠ .expr directAddressRm)
    {reg : Idx} {b1 : Byte} {l rest : List Byte} (hb : m.bytes reg ++ l = b1 :: rest) :
    (((opcodeTable.drop k).take 5).filter fun r => r.hitsSecond b1).map TableRow.mnemonic = [mnemonicAt (k + m.row)] := by
  cases m with
  | expr rm =>
    obtain ⟨rfl, -⟩ := List.cons.inj hb
    have hrm : rm ≠ directAddressRm := fun hrm => hm (congrArg _ hrm)
    have hrow : rowOfMode 0 rm = 1 := if_neg hrm
    rw [rows_of_mode hk, hrow, RmForm.row]
  | register | direct | disp8 | disp16 =>
    obtain ⟨rfl, -⟩ := List.cons.inj hb
    exact rows_of_mode hk _ _ _

/-- A row that tests no second byte is left by every one. -/
theorem rows_of_untestedSecond {k : Nat} (hk : k = 0 ∨ k = 1 ∨ k = 17 ∨ k = 18) (b1 : Byte) :
    (((opcodeTable.drop k).take 1).filter fun r => r.hitsSecond b1).map TableRow.mnemonic = [mnemonicAt k] := by
  obtain rfl | rfl | rfl | rfl := hk <;> revert b1 <;> decide

/-- The first two bytes of a well-formed instruction match its own row only. -/
theorem rows_of_encoding {i : Instr} (hwf : WellFormed i = true) {b0 b1 : Byte} {l rest : List Byte}
    (hb : encode i ++ l = b0 :: b1 :: rest) :
    (opcodeTable.filter fun r => r.hits b0 b1).map TableRow.mnemonic = [i.mnemonic] := by
  rw [filter_hits]
  cases i using Instr.byFamily with
  | imm8ToReg reg v =>
    obtain ⟨rfl, -⟩ := List.cons.inj hb
    rw [rowsOfOpcode_opImmToReg]
    exact rows_of_untestedSecond (.inl rfl) b1
  | imm16ToReg reg v =>
    obtain ⟨rfl, -⟩ := List.cons.inj hb
    rw [rowsOfOpcode_opImmToReg]
    exact rows_of_untestedSecond (.inr (.inl rfl)) b1
  | rmReg d w reg m =>
    rw [encode_instrByDirection] at hb
    obtain ⟨rfl, htail⟩ := List.cons.inj hb
    rw [rowsOfOpcode_opRmReg, mnemonic_instrByDirection]
    exact rows_of_rmBytes (firstRowOfDirection_cases d) (wellFormed_instrByDirection.mp hwf) htail
  | immToRm x imm m =>
    rw [encode_instrImmToRm] at hb
    obtain ⟨rfl, htail⟩ := List.cons.inj hb
    have htail : m.bytes x ++ (imm.bytes ++ l) = b1 :: rest := (List.append_assoc ..).symm.trans htail
    rw [rowsOfOpcode_opImmToRm, mnemonic_instrImmToRm]
    exact rows_of_rmBytes (.inr (.inr rfl)) (wellFormed_instrImmToRm.mp hwf) htail
  | memToAcc w a =>
    obtain ⟨rfl, -⟩ := List.cons.inj hb
    rw [rowsOfOpcode_opMemToAcc]
    exact rows_of_untestedSecond (.inr (.inr (.inl rfl))) b1
  | accToMem w a =>
    obtain ⟨rfl, -⟩ := List.cons.inj hb
    rw [rowsOfOpcode_opAccToMem]
    exact rows_of_untestedSecond (.inr (.inr (.inr rfl))) b1

/-- An accepted byte and enough bytes behind it decode: no read can fail (R75). -/
theorem decodeBytes_of_accepted {b0 : Byte} (hc : classify b0 ≠ none) (b1 b2 b3 b4 b5 : Byte) :
    ∃ i, decodeBytes [b0, b1, b2, b3, b4, b5] = .ok i := by
  cases h : decodeBytes [b0, b1, b2, b3, b4, b5] with
  | ok i => exact ⟨i, rfl⟩
  | error r =>
    obtain ⟨hnone, -⟩ | ⟨_, h0, hnone, -⟩ | ⟨_, -, -, k, hk, -, -, hmiss⟩ := (listReader_coherent _).decode_error h
    · cases hnone
    · cases h0
      exact absurd hnone hc
    · simp at hmiss
      omega

/-- Settles O7: what decodes begins with its encoding, whose first two bytes match its own row; six bytes are enough for
every read; and a rejected opcode byte leaves no row. -/
theorem everyAcceptedPairMatchesOneTableRow : Obligations.EveryAcceptedPairMatchesOneTableRow := by
  unfold Obligations.EveryAcceptedPairMatchesOneTableRow
  refine ⟨fun b0 b1 rest i h => ?_, fun b0 b1 hc => decodeBytes_of_accepted hc b1 0 0 0 0, fun b0 b1 hc => ?_⟩
  · obtain ⟨hwf, l, hb⟩ := decodedBytesAreTheEncoding _ _ h
    exact rows_of_encoding hwf hb.symm
  · rw [filter_hits, rowsOfOpcode_of_rejected b0 hc, List.filter_nil]

end Sys2Proof
end

section
/-! PROOF. Encodings that differ in one field: the Direction bit exchanges the operands (43_mov_rm_reg.md section 3), the
Register field of family 3 has no effect (44_mov_imm_to_rm.md section 3). In both families what the bytes behind the field
give is read once for all its values. -/

namespace Sys2Proof

/-- The register/memory operand depends on the mod byte's Mode and RegMem fields and on the reads at offset 2 only. -/
theorem decodeRm_congr {rd rd' : Reader} (b b' : Byte) {mode : Nat} (rm : Idx) (hmode : mode < 4)
    (hbyte : rd.readByte 2 = rd'.readByte 2) (hword : rd.readWord 2 = rd'.readWord 2) :
    decodeRm rd b mode rm = decodeRm rd' b' mode rm := by
  obtain rfl | rfl | rfl | rfl : mode = 0 ∨ mode = 1 ∨ mode = 2 ∨ mode = 3 := by omega
  · rw [decodeRm, decodeRm, hword]
  · rw [decodeRm, decodeRm, hbyte]
  · rw [decodeRm, decodeRm, hword]
  · rfl

theorem exists_modByteOf (b : Byte) : ∃ mode reg rm, b = modByteOf mode reg rm :=
  ⟨_, _, _, (modByteOf_fields b).symm⟩

/-! ### The Direction bit -/

/-- Flipping bit 1 of a family 2 opcode byte flips its Direction bit. -/
theorem opRmReg_xor_two (d : BitVec 1) (w : Width) : opRmReg d w ^^^ 2 = opRmReg (d ^^^ 1) w := by
  cases w <;> revert d <;> decide

/-- The bytes behind a family 2 opcode byte give one Register field and one read, whatever the Direction bit. -/
theorem decodeBytes_opRmReg (w : Width) (rest : List Byte) :
    ∃ reg read, ∀ d, decodeBytes (opRmReg d w :: rest) = Except.map (instrByDirection d w reg) read := by
  cases rest with
  | nil => exact ⟨0, .error (.outOfRange 1), fun d => decode_opRmReg_noModByte rfl rfl⟩
  | cons b1 rest =>
    obtain ⟨mode, reg, rm, rfl⟩ := exists_modByteOf b1
    refine ⟨reg, decodeRm (listReader (0 :: modByteOf mode reg rm :: rest)) (modByteOf mode reg rm) mode.toNat rm,
      fun d => ?_⟩
    rw [decodeBytes, decode_opRmReg_modByteOf rfl rfl]
    exact congrArg _ (decodeRm_congr _ _ rm mode.isLt rfl rfl)

/-! ### The Register field of family 3 -/

/-- Mod bytes that differ in the Register field only. -/
theorem modByteOf_of_and_eq {b c : Byte} (h : b &&& 0xC7 = c &&& 0xC7) :
    ∃ mode x y rm, b = modByteOf mode x rm ∧ c = modByteOf mode y rm := by
  have hmode : ∀ b : Byte, modeField (b &&& 0xC7) = modeField b := by decide
  have hlow : ∀ b : Byte, lowField (b &&& 0xC7) = lowField b := by decide
  refine ⟨BitVec.ofNat 2 (modeField b), regField b, regField c, lowField b, (modByteOf_fields b).symm, ?_⟩
  rw [← hmode b, ← hlow b, h, hmode, hlow, modByteOf_fields]

/-- The bytes behind the Register field of a family 3 mod byte give one read, whatever that field. -/
theorem decodeBytes_opImmToRm (w : Width) (mode : BitVec 2) (rm : Idx) (rest : List Byte) :
    ∃ read, ∀ x, decodeBytes (opImmToRm w :: modByteOf mode x rm :: rest) =
      Except.map (fun p : RmForm × Imm => instrImmToRm x p.2 p.1) read := by
  have hcongr (x : Idx) : decodeRm (listReader (opImmToRm w :: modByteOf mode x rm :: rest)) (modByteOf mode x rm)
      mode.toNat rm = decodeRm (listReader (0 :: 0 :: rest)) 0 mode.toNat rm :=
    decodeRm_congr _ _ rm mode.isLt rfl rfl
  cases hm : decodeRm (listReader (0 :: 0 :: rest)) 0 mode.toNat rm with
  | error r => exact ⟨.error r, fun x => decode_opImmToRm_rmError rfl rfl ((hcongr x).trans hm)⟩
  | ok m =>
    refine ⟨((listReader (0 :: 0 :: rest)).readImm w (2 + m.dispSize)).map fun imm => (m, imm), fun x => ?_⟩
    have himm : (listReader (opImmToRm w :: modByteOf mode x rm :: rest)).readImm w (2 + m.dispSize) =
        (listReader (0 :: 0 :: rest)).readImm w (2 + m.dispSize) := by
      cases w <;> cases m <;> rfl
    rw [decodeBytes, decode_opImmToRm_rmOk rfl rfl ((hcongr x).trans hm), himm]
    cases (listReader (0 :: 0 :: rest)).readImm w (2 + m.dispSize) <;> rfl

end Sys2Proof

namespace Sys2Proof.Machine

open Sys2Proof.Claims

/-- Settles O50: both opcode bytes give the same read, and exec orders its operands by the Direction bit alone. -/
theorem directionBitSwapsTheOperands : Obligations.DirectionBitSwapsTheOperands := by
  unfold Obligations.DirectionBitSwapsTheOperands
  intro b0 rest s hc
  obtain ⟨d, w, rfl⟩ : ∃ d w, b0 = opRmReg d w := ⟨_, _, (opRmReg_of_classify b0 hc).symm⟩
  obtain ⟨reg, read, hread⟩ := decodeBytes_opRmReg w rest
  rw [opRmReg_xor_two, hread, hread]
  refine ⟨fun r h => ?_, fun i h => ?_⟩
  · rw [except_map_error h, Except.map]
  · have hwf : WellFormed i = true := (decodedBytesAreTheEncoding _ _ ((hread d).trans h)).1
    obtain ⟨m, rfl, rfl⟩ := except_map_ok h
    obtain ⟨t, ht⟩ := rmOperand_text (w := w) (wellFormed_instrByDirection.mp hwf)
    have hexec := exec_instrByDirection ht s
    refine ⟨_, rfl, ?_⟩
    obtain rfl | rfl := BitVec.eq_zero_or_eq_one d
    · exact ⟨_, _, _, _, _, ht, rfl, hexec 0 reg, hexec 1 reg⟩
    · exact ⟨_, _, _, _, _, rfl, ht, hexec 1 reg, hexec 0 reg⟩

/-- The Register field of family 3 has no part in what exec does. -/
theorem exec_instrImmToRm_congr (x y : Idx) (imm : Imm) (m : RmForm) (s : State) :
    exec (instrImmToRm x imm m) s = exec (instrImmToRm y imm m) s := by
  cases m <;> rfl

/-- Settles O51: both mod bytes give the same read, and exec ignores the field. -/
theorem registerFieldOfFamilyThreeIsIgnored : Obligations.RegisterFieldOfFamilyThreeIsIgnored := by
  unfold Obligations.RegisterFieldOfFamilyThreeIsIgnored
  intro b0 b1 c1 rest hc hsame
  obtain ⟨w, rfl⟩ : ∃ w, b0 = opImmToRm w := ⟨_, (opImmToRm_of_classify b0 hc).symm⟩
  obtain ⟨mode, x, y, rm, rfl, rfl⟩ := modByteOf_of_and_eq hsame
  obtain ⟨read, hread⟩ := decodeBytes_opImmToRm w mode rm rest
  rw [hread, hread]
  refine ⟨fun i h => ?_, fun r h => ?_⟩
  · obtain ⟨⟨m, imm⟩, rfl, rfl⟩ := except_map_ok h
    exact ⟨_, rfl, exec_instrImmToRm_congr x y imm m⟩
  · rw [except_map_error h, Except.map]

end Sys2Proof.Machine
end

section
/-! PROOF. The STATUS view (10_state.md R26): its three fields stand side by side, so each is read back as it was packed. -/

namespace Sys2Proof.Machine

theorem statusReg_phase (s : State) : s.statusReg.extractLsb' 0 2 = phaseCode s.status := by
  rw [State.statusReg, BitVec.extractLsb'_append_eq_of_add_le (by omega), BitVec.extractLsb'_eq_self]

theorem statusReg_errKind (s : State) : s.statusReg.extractLsb' 2 2 = errKindCode s.err := by
  rw [State.statusReg, BitVec.extractLsb'_append_eq_of_le (by omega),
    BitVec.extractLsb'_append_eq_of_add_le (by omega), BitVec.extractLsb'_eq_self]

theorem statusReg_errByte (s : State) : s.statusReg.extractLsb' 4 8 = errByteCode s.err := by
  rw [State.statusReg, BitVec.extractLsb'_append_eq_of_le (by omega),
    BitVec.extractLsb'_append_eq_of_le (by omega), BitVec.extractLsb'_eq_self]

/-- The phase code of the status R23 gives. -/
theorem phaseCode_status (s : State) :
    (phaseCode s.status).toNat =
      if s.err ≠ none then 2 else if s.ip < s.buf.size then 0 else if s.ip = s.buf.size then 1 else 3 := by
  unfold State.status
  split_ifs <;> rfl

/-- Settles O49: the fields read back, the phase by R23 and the error fields by the record. -/
theorem statusRegisterView : Obligations.StatusRegisterView := by
  unfold Obligations.StatusRegisterView
  intro s
  rw [statusReg_phase, statusReg_errKind, statusReg_errByte]
  refine ⟨phaseCode_status s, fun hnone => ?_, fun e he => ?_⟩
  · rw [hnone]
    exact ⟨rfl, rfl⟩
  · rw [he]
    refine ⟨rfl, ?_⟩
    obtain ⟨kind, offset, byte⟩ := e
    cases kind <;> rfl

end Sys2Proof.Machine
end
